-- ==== Sys2Proof/Word.lean ====
section
/-! DEFINITION. The word types of the coding engine: a 32-bit register or command word, and a byte. -/

namespace Sys2Proof

/-- A 32-bit register, bus value or command word (00_scope.md R6, BUS_WIDTH; 30_encoding.md R80). -/
abbrev Word := BitVec 32

/-- A byte: a table entry, a Hamming data byte, a byte lane. -/
abbrev Byte := BitVec 8

end Sys2Proof
end

