-- ==== Sys2Proof/Syntax.lean ====
section
/-! DEFINITION. The commands of the block: one constructor per row of spec/opcode_table.json (30_encoding.md R82). -/

namespace Sys2Proof

/-- A command with its DLEN field (R81). DLEN is the data length of CRC_COMPUTE and CRC_VERIFY; the other five ignore it
(R83), and carry it so that no bit of a command word is lost (log 14). -/
inductive Instr where
  /-- NOP, OP 0x0 (R105). -/
  | nop (dlen : Nat)
  /-- CRC_COMPUTE, OP 0x1 (R131). -/
  | crcCompute (dlen : Nat)
  /-- CRC_VERIFY, OP 0x2 (R132). -/
  | crcVerify (dlen : Nat)
  /-- CRC_TBL_LOAD, OP 0x3 (R133). -/
  | crcTblLoad (dlen : Nat)
  /-- CRC_TBL_READ, OP 0x4 (R134). -/
  | crcTblRead (dlen : Nat)
  /-- HAM_ENCODE, OP 0x8 (R170). -/
  | hamEncode (dlen : Nat)
  /-- HAM_DECODE, OP 0x9 (R171). -/
  | hamDecode (dlen : Nat)
deriving DecidableEq, Repr

end Sys2Proof
end

