-- ==== Sys2Proof/WellFormed.lean ====
section
/-! DEFINITION. Which commands a command word can hold: the DLEN field has six bits (30_encoding.md R81, R83). -/

namespace Sys2Proof

/-- The DLEN field of a command. -/
def Instr.dlen : Instr → Nat
  | .nop n => n
  | .crcCompute n => n
  | .crcVerify n => n
  | .crcTblLoad n => n
  | .crcTblRead n => n
  | .hamEncode n => n
  | .hamDecode n => n

/-- A command is well-formed when its DLEN fits the six bits of c[13:8] (R83: values 0..63). A data length outside 1..32
is well-formed: the block rejects it with ERR_LEN when it executes it. -/
def Instr.wf (i : Instr) : Bool := decide (i.dlen < 64)

end Sys2Proof
end

