-- ==== Sys2Proof/Decode.lean ====
section
/-! DEFINITION. Decoding of a command word, total on any word and any bytes, and the encoder (30_encoding.md). -/

namespace Sys2Proof

/-- Why a word is no command (R85). Every reason is reported alike, with ERR_CMD. -/
inductive Illegal where
  /-- c[7:4] is not 0. -/
  | rsv0
  /-- c[31:14] is not 0. -/
  | rsv1
  /-- OP is 0x5 to 0x7 or 0xA to 0xF. -/
  | reservedOp
  /-- The bytes given are not the four lanes of one 32-bit word (R80: the length of every command is 32 bits). -/
  | notOneWord
deriving DecidableEq, Repr

/-- The fields of a command word (R81). -/
def opField (c : Word) : BitVec 4 := c.extractLsb' 0 4
def rsv0Field (c : Word) : BitVec 4 := c.extractLsb' 4 4
def dlenField (c : Word) : BitVec 6 := c.extractLsb' 8 6
def rsv1Field (c : Word) : BitVec 18 := c.extractLsb' 14 18

/-- The opcode map (R82): the command of an opcode with a data length, none for a reserved opcode. -/
def instrOfOp (op : Nat) (n : Nat) : Option Instr :=
  match op with
  | 0x0 => some (.nop n)
  | 0x1 => some (.crcCompute n)
  | 0x2 => some (.crcVerify n)
  | 0x3 => some (.crcTblLoad n)
  | 0x4 => some (.crcTblRead n)
  | 0x8 => some (.hamEncode n)
  | 0x9 => some (.hamDecode n)
  | _ => none

/-- R87: every 32-bit word is one of the seven commands, with its DLEN, or illegal. -/
def decode (c : Word) : Except Illegal Instr :=
  if rsv0Field c ≠ 0#4 then .error .rsv0
  else if rsv1Field c ≠ 0#18 then .error .rsv1
  else
    match instrOfOp (opField c).toNat (dlenField c).toNat with
    | some i => .ok i
    | none => .error .reservedOp

/-- The byte lanes of a word, lane 0 (the lowest address) first (20_memory.md R62: little-endian). -/
def lanes (c : Word) : List Byte :=
  [c.extractLsb' 0 8, c.extractLsb' 8 8, c.extractLsb' 16 8, c.extractLsb' 24 8]

/-- The word that four byte lanes carry (R62). -/
def ofLanes : List Byte → Option Word
  | [b0, b1, b2, b3] => some (b3 ++ b2 ++ b1 ++ b0)
  | _ => none

/-- Decoding of any bytes: exactly four lanes are a command word (R80). -/
def decodeBytes (bs : List Byte) : Except Illegal Instr :=
  match ofLanes bs with
  | some c => decode c
  | none => .error .notOneWord

/-- The OP field of a command (R82). -/
def Instr.op : Instr → BitVec 4
  | .nop _ => 0x0#4
  | .crcCompute _ => 0x1#4
  | .crcVerify _ => 0x2#4
  | .crcTblLoad _ => 0x3#4
  | .crcTblRead _ => 0x4#4
  | .hamEncode _ => 0x8#4
  | .hamDecode _ => 0x9#4

/-- The word of a command (R81): 18 zeros, DLEN, 4 zeros, OP. -/
def encode (i : Instr) : Word := 0#18 ++ BitVec.ofNat 6 i.dlen ++ 0#4 ++ i.op

/-- The instruction the decoder reads from a word numbered as spec/opcode_table.json numbers it: the word is laid out in
its byte lanes, and the bits from `nbits` up are 0. -/
def decodeTableWord (nbits w : Nat) : Option Instr :=
  match decodeBytes (lanes (BitVec.ofNat 32 (w % 2 ^ nbits))) with
  | .ok i => some i
  | .error _ => none

end Sys2Proof
end

