-- ==== Sys2Proof/Config.lean ====
section
/-! DEFINITION. The parameters of the block (00_scope.md R6): those with a fixed value, and the OPEN ones, which have no
value here. BUSY_TIME is a draw and stands in State's list of events (log 3). -/

namespace Sys2Proof.Config

/-- MAX_DLEN (R6): the largest CRC data length in bits. -/
abbrev maxDlen : Nat := 32

/-- MAX_DEG (R6): the largest degree of a polynomial; `poly` has one bit more. -/
abbrev maxDeg : Nat := 32

/-- DEFAULT_POLY (R6): x^8 + x^2 + x + 1. -/
def defaultPoly : BitVec 33 := 0x107#33

/-- TABLE_ENTRIES (R6). -/
def tableEntries : Nat := 256

/-- HAM_D0_IS_MSB (R6, R160): data bit d0 is byte bit 7. The functions of the codec take the order as an argument; the
commands use this value (log 10). -/
def hamD0IsMsb : Bool := true

/-- WINDOW_SIZE (R6, R60) in bytes. -/
abbrev windowSize : Nat := 0x40

/-- The ID register's constant (10_state.md R21). -/
def idValue : Word := 0x43480007#32

/-- OPEN (R6, R60, D5): which multiple of 0x40 the window stands at. It has no body, so that a claim holds whatever the
platform chooses (log 4). -/
opaque windowIndex : Nat

/-- BASE (R6, R60): the byte address of the register window, a multiple of 0x40. -/
def base : Nat := windowSize * windowIndex

end Sys2Proof.Config
end

