-- ==== Sys2Proof/Machine/State.lean ====
section
/-! DEFINITION. The state of the block (10_state.md R20), what stands around it on the bus, the reasons an access can fail,
and the state after reset (10_state.md R37). -/

namespace Sys2Proof.Machine

/-- Why a host access fails. Such a fault is the ANSWER to the access (`Answer.fault`); the block changes nothing and goes
on (60_exceptions.md R202), so no step of this model ends in a fault (log 5). -/
inductive Fault where
  /-- Raised by `performAccess` for an access in the window that is not 32 bits wide or not at a multiple of 4
  (20_memory.md R61, U7). Exact for this block; safe against a platform that accepts such accesses (D3). -/
  | busError
  /-- Raised by `answerOutside` for an access outside the window, which the block does not decode (20_memory.md R60, U8):
  what the master gets is the platform's. Safe: nothing is claimed about the platform (log 6). -/
  | outsideWindow
deriving DecidableEq, Repr

/-- Why an instruction has no meaning. -/
inductive Refusal where
  /-- Raised by an arm of `exec` for an instruction not modelled yet. No arm of this model raises it. Safe. -/
  | notModelled (mnemonic : String)
deriving DecidableEq, Repr

/-- The decode outcome (42_hamming.md R166): a closed set of three values, OUTC 0, 1, 2 in HAM_RES (10_state.md R30, U12). -/
inductive Outc where
  | ok
  | corrected
  | uncorrectable
deriving DecidableEq, Repr

/-- The table RAM: cells (index, entry) with the indexes strictly rising and no entry equal to the blank one. -/
abbrev Memory := List Host.Cell

/-- The block's complete state (R20), field by field. -/
structure Block where
  /-- `tbl_en`, CTRL.TBL_EN (R22). -/
  tblEn : Bool
  /-- `poly`, POLY_HI[0] and POLY_LO (R25, R26). -/
  poly : BitVec 33
  /-- `din`, DIN_HI and DIN_LO (R27, R28). -/
  din : BitVec 64
  /-- `crc_out`, CRC_OUT (R29). -/
  crcOut : Word
  /-- `ham_word`, HAM_RES.WORD (R30). -/
  hamWord : BitVec 12
  /-- `ham_synd`, HAM_RES.SYND (R30). -/
  hamSynd : BitVec 4
  /-- `ham_outc`, HAM_RES.OUTC (R30). -/
  hamOutc : Outc
  /-- `ham_data`, HAM_RES.DATA (R30). -/
  hamData : Byte
  /-- `vok`, STATUS.VOK (R23). -/
  vok : Bool
  /-- `last_err`, STATUS.LAST_ERR (R23). -/
  lastErr : Bool
  /-- `err_cmd`, STATUS[8] (R23). -/
  errCmd : Bool
  /-- `err_len`, STATUS[9] (R23). -/
  errLen : Bool
  /-- `err_tbl`, STATUS[10] (R23). -/
  errTbl : Bool
  /-- `err_range`, STATUS[11] (R23). -/
  errRange : Bool
  /-- `warn_poly`, STATUS[12] (R23). -/
  warnPoly : Bool
  /-- `busy`, STATUS.BUSY (R34). -/
  busy : Bool
  /-- `tbl[0..255]` (R31). -/
  tbl : Memory
  /-- `tbl_poly` (R32). -/
  tblPoly : BitVec 9
  /-- `tbl_valid` (R32). -/
  tblValid : Bool
deriving DecidableEq, Repr

/-- What a host access does: MemRead or MemWrite (00_scope.md R8). The value is the 32 bits of the data bus. -/
inductive AccessOp where
  | read
  | write (v : Word)
deriving DecidableEq, Repr

/-- A host bus access: which master sends it, its byte address, its size in bytes, and what it does (R8, R60, R69). -/
structure Access where
  master : Nat
  addr : Nat
  bytes : Nat
  op : AccessOp
deriving DecidableEq, Repr

/-- What a host gets back for an access (20_memory.md R73). -/
inductive Answer where
  /-- The value of a read. -/
  | data (v : Word)
  /-- A write was performed. -/
  | done
  /-- The access failed; nothing changed. -/
  | fault (f : Fault)
deriving DecidableEq, Repr

/-- What happens next outside the block's own rules (log 3). -/
inductive Event where
  /-- An access reaches the block (20_memory.md R67, R69). -/
  | access (a : Access)
  /-- The time of the running command is over (40_command.md R106, BUSY_TIME). -/
  | complete
  /-- The hardware reset is asserted (70_reset_and_hazards.md R230). For each held access, oldest first, `keep` says whether
  the platform has it performed after the reset (true) or dropped (false, and where the list is too short) (R233). -/
  | hwReset (keep : List Bool)
deriving DecidableEq, Repr

/-- The machine: the block, and around it the command in progress, the held accesses, what comes next, and what the hosts
got back. Only `block` is the spec's state; the other fields are the model's (log 3, 7, 8, 11). -/
structure State where
  block : Block
  /-- The word of the command in progress; 0 while the block is idle (R100, R24, log 7). -/
  cmd : Word
  /-- The accesses held while busy, oldest first (R66, log 8). -/
  held : List Access
  /-- What happens next, first event first (log 3). -/
  events : List Event
  /-- The answers given, newest first (log 11). -/
  answers : List (Access × Answer)
deriving DecidableEq, Repr

/-- The block after a reset (R37). `tbl` and `tbl_poly` are unspecified there: the table lists nothing (log 1) and
`tbl_poly` is 0 (log 2). -/
def Block.reset : Block where
  tblEn := true
  poly := Config.defaultPoly
  din := 0#64
  crcOut := 0#32
  hamWord := 0#12
  hamSynd := 0#4
  hamOutc := .ok
  hamData := 0#8
  vok := false
  lastErr := false
  errCmd := false
  errLen := false
  errTbl := false
  errRange := false
  warnPoly := false
  busy := false
  tbl := []
  tblPoly := 0#9
  tblValid := false

/-- The machine right after reset: the block as R37 says, idle (R234), nothing held and nothing on its way (log 12). -/
def State.reset : State where
  block := Block.reset
  cmd := 0#32
  held := []
  events := []
  answers := []

end Sys2Proof.Machine
end

