-- ==== Sys2Proof/Machine/Ops.lean ====
section
/-! DEFINITION. The named operations over the table RAM and over the block's fields, the rejection of a command (this
hardware's only exception, 40_command.md R102) and the clearing of its flags (60_exceptions.md R205). -/

namespace Sys2Proof.Machine

/-! ## The table RAM -/

/-- What an entry that is not listed reads as (log 1: the spec leaves it unspecified, U1). -/
def Memory.blank : Byte := 0#8

/-- Entry `i` of the table: `tbl[i]` (00_scope.md R8). -/
def Memory.read : Memory → Byte → Byte
  | [], _ => Memory.blank
  | (k, v) :: m, i => if k = i.toNat then v else Memory.read m i

/-- `tbl[i] <- v` (00_scope.md R8), keeping the canonical form: a cell that would read as an unlisted one is not listed. -/
def Memory.write : Memory → Byte → Byte → Memory
  | [], i, v => if v = Memory.blank then [] else [(i.toNat, v)]
  | (k, x) :: m, i, v =>
    if i.toNat < k then (if v = Memory.blank then (k, x) :: m else (i.toNat, v) :: (k, x) :: m)
    else if i.toNat = k then (if v = Memory.blank then m else (i.toNat, v) :: m)
    else (k, x) :: Memory.write m i v

/-- Cells above `lo` only, strictly rising, below TABLE_ENTRIES, none of them blank. -/
def Memory.wfFrom : Nat → Memory → Bool
  | _, [] => true
  | lo, (k, v) :: m => decide (lo ≤ k) && decide (k < Config.tableEntries) && decide (v ≠ Memory.blank) && Memory.wfFrom (k + 1) m

/-- The canonical form of the table RAM. -/
def Memory.wf (m : Memory) : Bool := Memory.wfFrom 0 m

/-! ## Updates of the block's fields -/

/-- The four rejections of a command (R102). -/
inductive Err where
  | cmd
  | len
  | tbl
  | range
deriving DecidableEq, Repr

/-- `raise E` (R102): set the sticky flag of E and LAST_ERR; nothing else. -/
def Block.raise (e : Err) (b : Block) : Block :=
  { b with
    errCmd := b.errCmd || decide (e = .cmd)
    errLen := b.errLen || decide (e = .len)
    errTbl := b.errTbl || decide (e = .tbl)
    errRange := b.errRange || decide (e = .range)
    lastErr := true }

/-- The end of an accepted command: `last_err <- 0` (R101, R103). -/
def Block.accept (b : Block) : Block := { b with lastErr := false }

/-- The clearing of sticky flags, the only return from an error (R205): a flag is cleared where the written value has a 1
in its bit of STATUS[12:8] (10_state.md R23). -/
def Block.clearFlags (v : Word) (b : Block) : Block :=
  { b with
    errCmd := b.errCmd && !v.getLsbD 8
    errLen := b.errLen && !v.getLsbD 9
    errTbl := b.errTbl && !v.getLsbD 10
    errRange := b.errRange && !v.getLsbD 11
    warnPoly := b.warnPoly && !v.getLsbD 12 }

/-- `crc_out <- zext_32(r)` (10_state.md R29). -/
def Block.setCrcOut (r : Word) (b : Block) : Block := { b with crcOut := r }

/-- `vok <- v` (41_crc.md R132). -/
def Block.setVok (v : Bool) (b : Block) : Block := { b with vok := v }

/-- All fields of HAM_RES at once (10_state.md R30). -/
def Block.setHamRes (word : BitVec 12) (synd : BitVec 4) (outc : Outc) (data : Byte) (b : Block) : Block :=
  { b with hamWord := word, hamSynd := synd, hamOutc := outc, hamData := data }

/-- `busy <- v` (40_command.md R100). -/
def Block.setBusy (v : Bool) (b : Block) : Block := { b with busy := v }

/-- `tbl_en <- v[0]` (10_state.md R22). -/
def Block.setTblEn (v : Bool) (b : Block) : Block := { b with tblEn := v }

/-- `poly <- P`. -/
def Block.setPoly (p : BitVec 33) (b : Block) : Block := { b with poly := p }

/-- `din <- v`. -/
def Block.setDin (v : BitVec 64) (b : Block) : Block := { b with din := v }

/-- The three writes that end a table build (41_crc.md R125). -/
def Block.setTable (m : Memory) (p : BitVec 9) (b : Block) : Block :=
  { b with tbl := m, tblPoly := p, tblValid := true }

/-- Either reset (70_reset_and_hazards.md R231): every piece of state takes its value of R37. -/
def Block.toReset (_ : Block) : Block := Block.reset

/-! ## Updates of the machine around the block -/

def State.setBlock (b : Block) (s : State) : State := { s with block := b }
def State.setCmd (c : Word) (s : State) : State := { s with cmd := c }
def State.setHeld (l : List Access) (s : State) : State := { s with held := l }
def State.setEvents (l : List Event) (s : State) : State := { s with events := l }

/-- The block answers an access (20_memory.md R73). -/
def State.reply (a : Access) (r : Answer) (s : State) : State := { s with answers := (a, r) :: s.answers }

end Sys2Proof.Machine
end

