-- ==== Sys2Proof/Machine/Operands.lean ====
section
/-! DEFINITION. The operands of a command: the polynomial with its fallback, the data length and the operand's range, and
the checks on them that reject a command (40_command.md R101, steps 2 to 5). -/

namespace Sys2Proof.Machine

/-- `bitlen(v)` (00_scope.md R7). -/
def bitlen (v : Nat) : Nat := if v = 0 then 0 else v.log2 + 1

/-- `deg(P) = bitlen(P) - 1` (41_crc.md R120). -/
def degree (p : Nat) : Nat := bitlen p - 1

/-- The degree of the polynomial register. -/
def Block.deg (b : Block) : Nat := degree b.poly.toNat

/-- `effective_poly()` (41_crc.md R121): a `poly` of 0 or 1 is replaced by DEFAULT_POLY, with a warning. The polynomial the
command then uses is the `poly` of the result. -/
def Block.effectivePoly (b : Block) : Block :=
  { b with
    poly := if b.poly.toNat < 2 then Config.defaultPoly else b.poly
    warnPoly := b.warnPoly || decide (b.poly.toNat < 2) }

/-- Step 2 of R101: the data length is 1..MAX_DLEN (30_encoding.md R83), else ERR_LEN. -/
def checkLen (n : Nat) (b : Block) (k : Block → Block) : Block :=
  if 1 ≤ n ∧ n ≤ Config.maxDlen then k b else b.raise .len

/-- Step 4 of R101: the polynomial has degree 8, else ERR_TBL. -/
def checkTable (b : Block) (k : Block → Block) : Block :=
  if b.deg = 8 then k b else b.raise .tbl

/-- Step 5 of R101: the operand `din` is at most `limit`, else ERR_RANGE. -/
def checkRange (limit : Nat) (b : Block) (k : Block → Block) : Block :=
  if b.din.toNat ≤ limit then k b else b.raise .range

/-- The limits of step 5 of R101. -/
abbrev computeLimit (n : Nat) : Nat := 2 ^ n - 1
abbrev verifyLimit (n d : Nat) : Nat := 2 ^ (n + d) - 1
abbrev byteLimit : Nat := 0xFF
abbrev codewordLimit : Nat := 0xFFF

end Sys2Proof.Machine
end

