-- ==== Sys2Proof/Machine/Flags.lean ====
section
/-! DEFINITION. The words a host reads flags and fields from: STATUS (10_state.md R23, R33) and HAM_RES (R30). -/

namespace Sys2Proof.Machine

/-- STATUS.TBL_VALID, computed at the time of the read (R33). -/
def Block.tblValidBit (b : Block) : Bool := b.tblValid && decide (b.tblPoly.setWidth 33 = b.poly)

/-- The STATUS word (R23), bit 31 on the left: 19 reserved bits, WARN_POLY, ERR_RANGE, ERR_TBL, ERR_LEN, ERR_CMD, 4 reserved
bits, LAST_ERR, TBL_VALID, VOK, BUSY. -/
def Block.status (b : Block) : Word :=
  0#19 ++ BitVec.ofBool b.warnPoly ++ BitVec.ofBool b.errRange ++ BitVec.ofBool b.errTbl ++ BitVec.ofBool b.errLen ++
    BitVec.ofBool b.errCmd ++ 0#4 ++ BitVec.ofBool b.lastErr ++ BitVec.ofBool b.tblValidBit ++ BitVec.ofBool b.vok ++
    BitVec.ofBool b.busy

/-- The OUTC field (R30): 0 OK, 1 CORRECTED, 2 UNCORRECTABLE. -/
def Outc.code : Outc → BitVec 2
  | .ok => 0#2
  | .corrected => 1#2
  | .uncorrectable => 2#2

/-- The HAM_RES word (R30): DATA, 6 reserved bits, OUTC, SYND, WORD. -/
def Block.hamRes (b : Block) : Word := b.hamData ++ 0#6 ++ b.hamOutc.code ++ b.hamSynd ++ b.hamWord

end Sys2Proof.Machine
end

