-- ==== Sys2Proof/Machine/Registers.lean ====
section
/-! DEFINITION. The register map of the window (10_state.md R38) and what a read and a write of each register do (R21 to
R30, R36). -/

namespace Sys2Proof.Machine

/-- The registers of the map (R38); `reserved k` is offset 0x28 + 4k (R36). -/
inductive Reg where
  | id
  | ctrl
  | status
  | cmd
  | polyLo
  | polyHi
  | dinLo
  | dinHi
  | crcOut
  | hamRes
  | reserved (k : Fin 6)
deriving DecidableEq, Repr

/-- The byte offset of a register from BASE (R38). -/
def Reg.offset : Reg → Nat
  | .id => 0x00
  | .ctrl => 0x04
  | .status => 0x08
  | .cmd => 0x0C
  | .polyLo => 0x10
  | .polyHi => 0x14
  | .dinLo => 0x18
  | .dinHi => 0x1C
  | .crcOut => 0x20
  | .hamRes => 0x24
  | .reserved k => 0x28 + 4 * k.val

/-- The register at an offset that is a multiple of 4 below 0x40 (R38). -/
def regAt (off : Nat) : Reg :=
  match off / 4 with
  | 0 => .id
  | 1 => .ctrl
  | 2 => .status
  | 3 => .cmd
  | 4 => .polyLo
  | 5 => .polyHi
  | 6 => .dinLo
  | 7 => .dinHi
  | 8 => .crcOut
  | 9 => .hamRes
  | k + 10 => .reserved (Fin.ofNat 6 k)

/-- The value a read returns (20_memory.md R63): it depends on the block alone and changes nothing. -/
def readReg (r : Reg) (b : Block) : Word :=
  match r with
  | .id => Config.idValue
  | .ctrl => 0#31 ++ BitVec.ofBool b.tblEn
  | .status => b.status
  | .cmd => 0#32
  | .polyLo => b.poly.setWidth 32
  | .polyHi => (b.poly.extractLsb' 32 1).setWidth 32
  | .dinLo => b.din.setWidth 32
  | .dinHi => b.din.extractLsb' 32 32
  | .crcOut => b.crcOut
  | .hamRes => b.hamRes
  | .reserved _ => 0#32

/-- CTRL (R22): with SRST = 1 the soft reset, the other bits ignored (70_reset_and_hazards.md R232); else TBL_EN <- v[0]. -/
def writeCtrl (v : Word) (b : Block) : Block :=
  if v.getLsbD 1 then b.toReset else b.setTblEn (v.getLsbD 0)

/-- The effect of a write on the block (20_memory.md R64). A write to CMD starts a command: here `busy <- 1` (40_command.md
R100); `performAccess` keeps its word. -/
def writeReg (r : Reg) (v : Word) (b : Block) : Block :=
  match r with
  | .id => b
  | .ctrl => writeCtrl v b
  | .status => b.clearFlags v
  | .cmd => b.setBusy true
  | .polyLo => b.setPoly (b.poly.extractLsb' 32 1 ++ v)
  | .polyHi => b.setPoly (v.extractLsb' 0 1 ++ b.poly.extractLsb' 0 32)
  | .dinLo => b.setDin (b.din.extractLsb' 32 32 ++ v)
  | .dinHi => b.setDin (v ++ b.din.extractLsb' 0 32)
  | .crcOut => b
  | .hamRes => b
  | .reserved _ => b

end Sys2Proof.Machine
end

