-- ==== Sys2Proof/Machine/Bus.lean ====
section
/-! DEFINITION. The bus: where an access goes (20_memory.md R60, R61), performing one on an idle block (R64, R67), what a
busy block does with one (R66), and the hardware reset (70_reset_and_hazards.md R230, R233). -/

namespace Sys2Proof.Machine

/-- Where an access goes. -/
inductive Target where
  /-- Not in the window: the block does not decode it (R60, U8, log 6). -/
  | outside
  /-- In the window, but not 32 bits wide or not at a multiple of 4 (R61). -/
  | bad
  /-- A register. -/
  | reg (r : Reg)
deriving DecidableEq, Repr

/-- The target of an access by its byte address and size (R60, R61). BASE is a multiple of 0x40, so that the offset is a
multiple of 4 just when the address is. -/
def target (a : Access) : Target :=
  if Config.base ≤ a.addr ∧ a.addr - Config.base < Config.windowSize then
    if a.bytes = 4 ∧ (a.addr - Config.base) % 4 = 0 then .reg (regAt (a.addr - Config.base)) else .bad
  else .outside

/-- The answer to an access outside the window: none of the block's (U8). No state changes. -/
def answerOutside (a : Access) (s : State) : State := s.reply a (.fault .outsideWindow)

/-- Perform a register access (R63, R64). A write to CMD also keeps its word, which `busy` = 1 then executes (R100). -/
def performReg (a : Access) (r : Reg) (s : State) : State :=
  match a.op with
  | .read => s.reply a (.data (readReg r s.block))
  | .write v =>
    ((s.setBlock (writeReg r v s.block)).setCmd (if r = .cmd then v else s.cmd)).reply a .done

/-- Perform an access on an idle block. -/
def performAccess (a : Access) (s : State) : State :=
  match target a with
  | .outside => answerOutside a s
  | .bad => s.reply a (.fault .busError)
  | .reg r => performReg a r s

/-- An accepted read of STATUS, the one access a busy block answers at once (R66). -/
def isStatusRead (a : Access) : Bool := decide (target a = .reg .status ∧ a.op = .read)

/-- What a busy block holds (R66): every access to the window but a STATUS read, one it will answer with a bus error too
(log 15). -/
def isHeld (a : Access) : Bool := decide (target a ≠ .outside) && !isStatusRead a

/-- An access reaches a busy block (R66): it is held with no effect and no answer, or it is a STATUS read and is answered
with BUSY = 1 and the other bits as before the command started. -/
def arriveBusy (a : Access) (s : State) : State :=
  if isHeld a then s.setHeld (s.held ++ [a]) else performAccess a s

/-- The held accesses that the platform has performed after a hardware reset (R233, log 9). -/
def keptHeld : List Bool → List Access → List Access
  | true :: ks, a :: as => a :: keptHeld ks as
  | false :: ks, _ :: as => keptHeld ks as
  | _, _ => []

/-- The hardware reset (R231, R233): every piece of state takes its reset value and a running command is abandoned. -/
def hardwareReset (keep : List Bool) (s : State) : State :=
  ((s.setBlock s.block.toReset).setCmd 0#32).setHeld (keptHeld keep s.held)

end Sys2Proof.Machine
end

