-- ==== Sys2Proof/Machine/Control.lean ====
section
/-! DEFINITION. The command of no family: NOP (40_command.md). -/

namespace Sys2Proof.Machine

/-- NOP (R105): DLEN is ignored; LAST_ERR <- 0 and nothing else. -/
def execNop (_dlen : Nat) (s : State) : Host.Outcome State Fault Refusal :=
  .next (s.setBlock s.block.accept)

end Sys2Proof.Machine
end

