-- ==== Sys2Proof/Machine/Crc.lean ====
section
/-! DEFINITION. The CRC engine: its functions on unbounded unsigned numbers (41_crc.md R122 to R127; 00_scope.md R7) and its
four commands (R131 to R134). -/

namespace Sys2Proof.Machine

/-! ## Functions -/

/-- `crc_div(V, P, n)` (R122): n steps, the leading position first; step i clears bit i + d by adding P << i. -/
def crcDiv (v p : Nat) : Nat → Nat
  | 0 => v % 2 ^ degree p
  | i + 1 => crcDiv (if v.testBit (i + degree p) then v ^^^ (p <<< i) else v) p i

/-- `crc_compute(w, P, n)` (R123). -/
def crcCompute (w p n : Nat) : Nat := crcDiv (w <<< degree p) p n

/-- `crc_residue(f, P, n)` (R124). -/
def crcResidue (f p n : Nat) : Nat := crcDiv f p n

/-- `crc_verify(f, P, n)` (R124). -/
def crcVerify (f p n : Nat) : Bool := decide (crcResidue f p n = 0)

/-- The entry of the lookup table of P at b (R125): 8 bits. -/
def tableEntry (p b : Nat) : Byte := BitVec.ofNat 8 (crcDiv (b <<< 8) p 8)

/-- The writes of a table build (R125) for b = 0 to n - 1, in that order. -/
def buildFirst (p : Nat) (m : Memory) : Nat → Memory
  | 0 => m
  | n + 1 => Memory.write (buildFirst p m n) (BitVec.ofNat 8 n) (tableEntry p n)

/-- All 256 writes of a table build (R125). -/
def buildCells (p : Nat) (m : Memory) : Memory := buildFirst p m Config.tableEntries

/-- `build_table(P)` (R125). -/
def buildTable (p : BitVec 33) (b : Block) : Block := b.setTable (buildCells p.toNat b.tbl) (p.setWidth 9)

/-- `ensure_table(P)` (R127): build the table unless it is the one of P. -/
def ensureTable (p : BitVec 33) (b : Block) : Block :=
  if b.tblValid = true ∧ b.tblPoly.setWidth 33 = p then b else buildTable p b

/-- Table eligibility (R126). -/
def tableEligible (n p : Nat) : Bool := decide (n = 8 ∧ degree p = 8)

/-! ## Commands -/

/-- `perform(0x1, n, P, D)` (R131) for P = `poly` and D = `din`. -/
def performCrcCompute (n : Nat) (b : Block) : Block :=
  if b.tblEn = true ∧ tableEligible n b.poly.toNat = true then
    let b' := ensureTable b.poly b
    b'.setCrcOut ((Memory.read b'.tbl (b'.din.setWidth 8)).setWidth 32)
  else b.setCrcOut (BitVec.ofNat 32 (crcCompute b.din.toNat b.poly.toNat n))

/-- CRC_COMPUTE on the block, with the checks of 40_command.md R101. -/
def crcComputeBlock (n : Nat) (b : Block) : Block :=
  checkLen n b fun b =>
    checkRange (computeLimit n) b.effectivePoly fun b => (performCrcCompute n b).accept

/-- `perform(0x2, n, P, D)` (R132): the bitwise path; the table is neither read nor built. -/
def performCrcVerify (n : Nat) (b : Block) : Block :=
  (b.setCrcOut (BitVec.ofNat 32 (crcResidue b.din.toNat b.poly.toNat n))).setVok
    (crcVerify b.din.toNat b.poly.toNat n)

/-- CRC_VERIFY on the block. -/
def crcVerifyBlock (n : Nat) (b : Block) : Block :=
  checkLen n b fun b =>
    checkRange (verifyLimit n b.effectivePoly.deg) b.effectivePoly fun b => (performCrcVerify n b).accept

/-- CRC_TBL_LOAD on the block (R133). -/
def crcTblLoadBlock (b : Block) : Block :=
  checkTable b.effectivePoly fun b => (ensureTable b.poly b).accept

/-- `perform(0x4, _, P, D)` (R134). -/
def performCrcTblRead (b : Block) : Block :=
  let b' := ensureTable b.poly b
  b'.setCrcOut ((Memory.read b'.tbl (b'.din.setWidth 8)).setWidth 32)

/-- CRC_TBL_READ on the block: ERR_TBL comes before ERR_RANGE. -/
def crcTblReadBlock (b : Block) : Block :=
  checkTable b.effectivePoly fun b => checkRange byteLimit b fun b => (performCrcTblRead b).accept

/-- CRC_COMPUTE (R131): compute the CRC of a word. -/
def execCrcCompute (dlen : Nat) (s : State) : Host.Outcome State Fault Refusal :=
  .next (s.setBlock (crcComputeBlock dlen s.block))

/-- CRC_VERIFY (R132): check a packet. -/
def execCrcVerify (dlen : Nat) (s : State) : Host.Outcome State Fault Refusal :=
  .next (s.setBlock (crcVerifyBlock dlen s.block))

/-- CRC_TBL_LOAD (R133): build the lookup table ahead of use. DLEN and `din` are ignored. -/
def execCrcTblLoad (_dlen : Nat) (s : State) : Host.Outcome State Fault Refusal :=
  .next (s.setBlock (crcTblLoadBlock s.block))

/-- CRC_TBL_READ (R134): read one table entry. DLEN is ignored. -/
def execCrcTblRead (_dlen : Nat) (s : State) : Host.Outcome State Fault Refusal :=
  .next (s.setBlock (crcTblReadBlock s.block))

end Sys2Proof.Machine
end

