-- ==== Sys2Proof/Machine/Hamming.lean ====
section
/-! DEFINITION. The Hamming(12,8) codec: its functions (42_hamming.md R160 to R169) and its two commands (R170, R171). -/

namespace Sys2Proof.Machine

/-! ## Functions -/

/-- Data bit d_i of the byte (R160): byte bit 7 - i where d0 is the MSB, byte bit i otherwise. -/
def dataBit (d0IsMsb : Bool) (b : Byte) (i : Nat) : Bool :=
  if d0IsMsb then b.getLsbD (7 - i) else b.getLsbD i

/-- `rev8` (R160): the 8 bits of a byte in reverse order. -/
def rev8 (b : Byte) : Byte := b.reverse

/-- `ham_encode(b)` (R162, R163, layout R161) for an order of the data bits. -/
def hamEncodeIn (d0IsMsb : Bool) (b : Byte) : BitVec 12 :=
  let d := dataBit d0IsMsb b
  let p1 := d 0 ^^ d 1 ^^ d 3 ^^ d 4 ^^ d 6
  let p2 := d 0 ^^ d 2 ^^ d 3 ^^ d 5 ^^ d 6
  let p4 := d 1 ^^ d 2 ^^ d 3 ^^ d 7
  let p8 := d 4 ^^ d 5 ^^ d 6 ^^ d 7
  BitVec.ofBool p1 ++ BitVec.ofBool p2 ++ BitVec.ofBool (d 0) ++ BitVec.ofBool p4 ++ BitVec.ofBool (d 1) ++
    BitVec.ofBool (d 2) ++ BitVec.ofBool (d 3) ++ BitVec.ofBool p8 ++ BitVec.ofBool (d 4) ++ BitVec.ofBool (d 5) ++
    BitVec.ofBool (d 6) ++ BitVec.ofBool (d 7)

/-- `ham_encode(b)` (R163) with the order of R6. -/
def hamEncode (b : Byte) : BitVec 12 := hamEncodeIn Config.hamD0IsMsb b

/-- `r@k`, the bit at position k = 1..12 counted from the MSB (R161, R164). -/
def atPos (r : BitVec 12) (k : Nat) : Bool := r.getLsbD (12 - k)

/-- `ham_syndrome(r)` (R164). -/
def hamSyndrome (r : BitVec 12) : BitVec 4 :=
  let c1 := atPos r 1 ^^ atPos r 3 ^^ atPos r 5 ^^ atPos r 7 ^^ atPos r 9 ^^ atPos r 11
  let c2 := atPos r 2 ^^ atPos r 3 ^^ atPos r 6 ^^ atPos r 7 ^^ atPos r 10 ^^ atPos r 11
  let c4 := atPos r 4 ^^ atPos r 5 ^^ atPos r 6 ^^ atPos r 7 ^^ atPos r 12
  let c8 := atPos r 8 ^^ atPos r 9 ^^ atPos r 10 ^^ atPos r 11 ^^ atPos r 12
  BitVec.ofBool c8 ++ BitVec.ofBool c4 ++ BitVec.ofBool c2 ++ BitVec.ofBool c1

/-- The word with position k flipped: bit index 12 - k (R161, R166). -/
def flipPos (r : BitVec 12) (k : Nat) : BitVec 12 := r ^^^ (1#12 <<< (12 - k))

/-- `ham_decode(r)` (R166): (word, outcome, syndrome), with the re-syndrome check as the source gives it (C2 of
90_conflicts.md keeps it, R167 shows that it never fails). -/
def hamDecode (r : BitVec 12) : BitVec 12 × Outc × BitVec 4 :=
  let s := hamSyndrome r
  if s = 0#4 then (r, .ok, 0#4)
  else if 12 < s.toNat then (r, .uncorrectable, s)
  else
    let cand := flipPos r s.toNat
    if hamSyndrome cand = 0#4 then (cand, .corrected, s) else (r, .uncorrectable, s)

/-- The data positions of a word in increasing order, the first in the MSB (R169, d0 = MSB). -/
def dataPositions (w : BitVec 12) : Byte :=
  BitVec.ofBool (atPos w 3) ++ BitVec.ofBool (atPos w 5) ++ BitVec.ofBool (atPos w 6) ++ BitVec.ofBool (atPos w 7) ++
    BitVec.ofBool (atPos w 9) ++ BitVec.ofBool (atPos w 10) ++ BitVec.ofBool (atPos w 11) ++ BitVec.ofBool (atPos w 12)

/-- `ham_extract(w)` (R169) for an order of the data bits; the other order reverses the byte (R160). -/
def hamExtractIn (d0IsMsb : Bool) (w : BitVec 12) : Byte :=
  if d0IsMsb then dataPositions w else rev8 (dataPositions w)

/-- `ham_extract(w)` (R169) with the order of R6. -/
def hamExtract (w : BitVec 12) : Byte := hamExtractIn Config.hamD0IsMsb w

/-! ## Commands -/

/-- `perform(0x8, _, _, D)` (R170). -/
def performHamEncode (b : Block) : Block :=
  b.setHamRes (hamEncode (b.din.setWidth 8)) 0#4 .ok (b.din.setWidth 8)

/-- HAM_ENCODE on the block, with the check of 40_command.md R101. -/
def hamEncodeBlock (b : Block) : Block := checkRange byteLimit b fun b => (performHamEncode b).accept

/-- `perform(0x9, _, _, D)` (R171). -/
def performHamDecode (b : Block) : Block :=
  let r := hamDecode (b.din.setWidth 12)
  b.setHamRes r.1 r.2.2 r.2.1 (hamExtract r.1)

/-- HAM_DECODE on the block. -/
def hamDecodeBlock (b : Block) : Block := checkRange codewordLimit b fun b => (performHamDecode b).accept

/-- HAM_ENCODE (R170): encode a byte. DLEN is ignored. -/
def execHamEncode (_dlen : Nat) (s : State) : Host.Outcome State Fault Refusal :=
  .next (s.setBlock (hamEncodeBlock s.block))

/-- HAM_DECODE (R171): decode and correct a received word. DLEN is ignored. -/
def execHamDecode (_dlen : Nat) (s : State) : Host.Outcome State Fault Refusal :=
  .next (s.setBlock (hamDecodeBlock s.block))

end Sys2Proof.Machine
end

