-- ==== Sys2Proof/Machine/Dispatch.lean ====
section
/-! DEFINITION. One arm per command of the opcode table (30_encoding.md R82). -/

namespace Sys2Proof.Machine

def exec (i : Instr) (s : State) : Host.Outcome State Fault Refusal :=
  match i with
  | .nop n => Sys2Proof.Machine.execNop n s
  | .crcCompute n => Sys2Proof.Machine.execCrcCompute n s
  | .crcVerify n => Sys2Proof.Machine.execCrcVerify n s
  | .crcTblLoad n => Sys2Proof.Machine.execCrcTblLoad n s
  | .crcTblRead n => Sys2Proof.Machine.execCrcTblRead n s
  | .hamEncode n => Sys2Proof.Machine.execHamEncode n s
  | .hamDecode n => Sys2Proof.Machine.execHamDecode n s

end Sys2Proof.Machine
end

