-- ==== Sys2Proof/Machine/Command.lean ====
section
/-! DEFINITION. Running the command in progress and choosing what the machine does next (40_command.md R100, R101, R106;
20_memory.md R66, R67). -/

namespace Sys2Proof.Machine

/-- The end of a command (R100): `busy <- 0`; the block keeps no copy of the word (10_state.md R24). -/
def State.endCommand (s : State) : State := (s.setBlock (s.block.setBusy false)).setCmd 0#32

/-- An illegal command word (30_encoding.md R85; R101 step 1): ERR_CMD. -/
def rejectIllegal (s : State) : State := s.setBlock (s.block.raise .cmd)

/-- `execute(c)` (R101) for the word of the command in progress. -/
def execute (s : State) : Host.Outcome State Fault Refusal :=
  match decode s.cmd with
  | .ok i => exec i s
  | .error _ => .next (rejectIllegal s)

/-- The command in progress runs to its completion, as one indivisible step (R100). -/
def finishCommand (s : State) : Host.Outcome State Fault Refusal :=
  match execute s with
  | .next t => .next t.endCommand
  | .fault f => .fault f
  | .refused r => .refused r

/-- What a busy block does next: an access that arrives is answered or held; the command completes where the draw says so,
and where nothing else is left to happen (70_reset_and_hazards.md R241, log 13); the hardware reset abandons it. -/
def busyNext (s : State) : Host.Outcome State Fault Refusal :=
  match s.events with
  | [] => finishCommand s
  | .complete :: es => finishCommand (s.setEvents es)
  | .hwReset keep :: es => .next (hardwareReset keep (s.setEvents es))
  | .access a :: es => .next (arriveBusy a (s.setEvents es))

/-- What an idle block does next: the oldest held access first (R66, R67), then what comes next. With nothing to do it
stays as it is. -/
def idleNext (s : State) : Host.Outcome State Fault Refusal :=
  match s.held with
  | a :: as => .next (performAccess a (s.setHeld as))
  | [] =>
    match s.events with
    | [] => .next s
    | .complete :: es => .next (s.setEvents es)
    | .hwReset keep :: es => .next (hardwareReset keep (s.setEvents es))
    | .access a :: es => .next (performAccess a (s.setEvents es))

/-- The next thing the machine does. -/
def nextState (s : State) : Host.Outcome State Fault Refusal :=
  if s.block.busy then busyNext s else idleNext s

/-- The machine in which the command word `c` has just been written to CMD and runs in the very next step (log 12). -/
def startWord (c : Word) (s : State) : State :=
  ((s.setBlock (s.block.setBusy true)).setCmd c).setEvents (.complete :: s.events)

end Sys2Proof.Machine
end

