-- ==== Sys2Proof/Machine/Step.lean ====
section
/-! DEFINITION. One step of the machine, and the word a step runs next. -/

namespace Sys2Proof.Machine

/-- One step: the block performs one access, runs its command to completion, or is reset; see `nextState`. -/
def step (s : State) : Host.Outcome State Fault Refusal := nextState s

/-- `s` with a command word placed as the command in progress, whose completion is what happens next (log 12). -/
def State.withFetchWord (s : State) (nbits w : Nat) : State := startWord (BitVec.ofNat 32 (w % 2 ^ nbits)) s

end Sys2Proof.Machine
end

