-- ==== Sys2Proof/Machine/HostProgram.lean ====
section
/-! DEFINITION. The notation host programs are written in, and its pseudo-instructions, each as the bus accesses it stands
for (30_encoding.md R88, R89). The block runs no code of its own (10_state.md R35): a host program is a list of accesses. -/

namespace Sys2Proof.Machine

/-- `WR <REG>, <value>` (R88). -/
def wr (master : Nat) (r : Reg) (v : Word) : Access := ⟨master, Config.base + r.offset, 4, .write v⟩

/-- `RD <REG>` (R88). -/
def rd (master : Nat) (r : Reg) : Access := ⟨master, Config.base + r.offset, 4, .read⟩

/-- One line of a host program. -/
inductive HostLine where
  /-- `WR <REG>, <value>` (R88). -/
  | write (r : Reg) (v : Word)
  /-- `RD <REG>` (R88). -/
  | read (r : Reg)
  /-- `<mnemonic> [DLEN=<n>]` (R88). -/
  | command (i : Instr)
  /-- `SETPOLY p` (R89). -/
  | setPoly (p : BitVec 64)
  /-- `SETDIN v` (R89). -/
  | setDin (v : BitVec 64)
  /-- `CLRERR` (R89). -/
  | clrErr
  /-- `WAITIDLE` (R89), for the number of STATUS reads the host makes before bit 0 reads 0. -/
  | waitIdle (reads : Nat)
  /-- `SRST` (R89). -/
  | srst
  /-- `TBLOFF` (R89). -/
  | tblOff
  /-- `TBLON` (R89). -/
  | tblOn
deriving DecidableEq, Repr

/-- The accesses a line stands for (R88, R89), in order. -/
def HostLine.accesses (m : Nat) : HostLine → List Access
  | .write r v => [wr m r v]
  | .read r => [rd m r]
  | .command i => [wr m .cmd (encode i)]
  | .setPoly p => [wr m .polyLo (p.extractLsb' 0 32), wr m .polyHi (p.extractLsb' 32 32)]
  | .setDin v => [wr m .dinLo (v.extractLsb' 0 32), wr m .dinHi (v.extractLsb' 32 32)]
  | .clrErr => [wr m .status 0x00001F00#32]
  | .waitIdle k => List.replicate k (rd m .status)
  | .srst => [wr m .ctrl 0x00000002#32]
  | .tblOff => [wr m .ctrl 0x00000000#32]
  | .tblOn => [wr m .ctrl 0x00000001#32]

/-- The accesses of a host program, in program order. -/
def hostAccesses (m : Nat) (lines : List HostLine) : List Access := lines.flatMap (HostLine.accesses m)

/-- A host program placed as what reaches the block next, after what is already on its way (log 12). -/
def State.withHostProgram (m : Nat) (lines : List HostLine) (s : State) : State :=
  s.setEvents (s.events ++ (hostAccesses m lines).map Event.access)

/-- The end of a host run (70_reset_and_hazards.md R242): the last access has been performed and `busy` is 0. DESIGN CHOICE
(log 17, safe): R242 says nothing about accesses of other masters; here a run has not ended while an access of any master is
held or on its way, or any other event is left (a later hardware reset, a `complete` that comes while idle). -/
def State.runEnded (s : State) : Bool := !s.block.busy && s.held.isEmpty && s.events.isEmpty

end Sys2Proof.Machine
end

