-- ==== Sys2Proof/Safety.lean ====
section
/-! DEFINITION. The terms claims are stated in: the invariant of the machine, what a step may not depend on, the GF(2)
product, the syndrome as an XOR of positions, and 40_command.md R101 as one function of the raw command word. -/

namespace Sys2Proof.Safety

open Sys2Proof.Machine

/-! ## Words and accesses -/

/-- `legal(c)` of 30_encoding.md R87, on the raw word. -/
def legalWord (c : Word) : Bool :=
  decide (c &&& 0xFFFFC0F0#32 = 0#32) &&
    decide (c &&& 0xF#32 ∈ [0x0#32, 0x1#32, 0x2#32, 0x3#32, 0x4#32, 0x8#32, 0x9#32])

/-- The byte address of an access is in the register window (20_memory.md R60). -/
def inWindow (a : Access) : Prop := Config.base ≤ a.addr ∧ a.addr < Config.base + 0x40

/-- An accepted access to the register at offset `off` (20_memory.md R61). -/
def acceptedAt (off : Nat) (a : Access) : Prop := a.addr = Config.base + off ∧ a.bytes = 4 ∧ off % 4 = 0 ∧ off < 0x40

/-- An accepted read of STATUS (offset 0x08), the access a busy block answers at once (R66). -/
def statusRead (a : Access) : Prop := acceptedAt 0x08 a ∧ a.op = .read

/-- `a` is the access an idle block performs next: the oldest held one, and where none is held the one that arrives
(R66, R67). `s'` is the machine without it. -/
def PerformsNext (a : Access) (s s' : State) : Prop :=
  s.block.busy = false ∧
    ((∃ as, s.held = a :: as ∧ s' = { s with held := as }) ∨
      (s.held = [] ∧ ∃ es, s.events = .access a :: es ∧ s' = { s with events := es }))

/-- The command in progress completes next (40_command.md R106; log 13 where no event is left). `s'` is the machine
without that event. -/
def CompletesNext (s s' : State) : Prop :=
  s.block.busy = true ∧ ((s.events = [] ∧ s' = s) ∨ ∃ es, s.events = .complete :: es ∧ s' = { s with events := es })

/-- The polynomial a CRC command uses (41_crc.md R121). -/
def usedPoly (b : Block) : BitVec 33 := if b.poly = 0#33 ∨ b.poly = 1#33 then 0x107#33 else b.poly

/-- WARN_POLY after a CRC command has obtained its polynomial (R121). -/
def warnAfter (b : Block) : Bool := b.warnPoly || decide (b.poly = 0#33 ∨ b.poly = 1#33)

/-- The table of a degree-8 polynomial, complete, under its tag (41_crc.md R125). -/
def HoldsTableOf (p : BitVec 33) (b : Block) : Prop :=
  b.tblValid = true ∧ b.tblPoly.setWidth 33 = p ∧
    ∀ i : Byte, (Memory.read b.tbl i).toNat = crcCompute i.toNat p.toNat 8

/-! ## The invariant -/

/-- A valid table is the table of its tag: the tag has degree 8 and every entry is the CRC of its index (10_state.md R32,
41_crc.md R125). -/
def TableSound (b : Block) : Prop :=
  b.tblValid = true →
    degree b.tblPoly.toNat = 8 ∧
      ∀ i : Byte, Memory.read b.tbl i = BitVec.ofNat 8 (crcCompute i.toNat b.tblPoly.toNat 8)

/-- HAM_RES is a decode or encode result: DATA is the data byte of WORD (10_state.md R20), the outcome is the one the
syndrome gives (42_hamming.md R166), and a word that is not uncorrectable is a codeword. -/
def HamSound (b : Block) : Prop :=
  b.hamData = hamExtract b.hamWord ∧
    (b.hamOutc = .ok ↔ b.hamSynd = 0#4) ∧
      (b.hamOutc = .uncorrectable ↔ 12 < b.hamSynd.toNat) ∧
        (b.hamOutc ≠ .uncorrectable → hamSyndrome b.hamWord = 0#4)

/-- The block keeps no copy of a command word while idle (10_state.md R24), and holds only what R66 holds. -/
def BusSound (s : State) : Prop :=
  (s.block.busy = false → s.cmd = 0#32) ∧ ∀ a ∈ s.held, inWindow a ∧ ¬statusRead a

/-- The invariant of the machine. -/
def Inv (s : State) : Prop :=
  Memory.wf s.block.tbl = true ∧ TableSound s.block ∧ HamSound s.block ∧ BusSound s

/-! ## What must not matter -/

/-- The block with what R37 leaves unspecified put out of sight: `tbl` and `tbl_poly`. -/
def withoutTable (b : Block) : Block := { b with tbl := [], tblPoly := 0#9 }

/-- The block with the table, its tag and its validity put out of sight: what a host reads but STATUS.TBL_VALID. -/
def withoutCache (b : Block) : Block := { b with tbl := [], tblPoly := 0#9, tblValid := false }

/-- Two blocks that differ at most in a table that is not valid, and in its tag (93_implementation_defined.md U1, U2). -/
def SameButStaleTable (b c : Block) : Prop :=
  Memory.wf b.tbl = true ∧ Memory.wf c.tbl = true ∧ withoutTable b = withoutTable c ∧
    (b.tblValid = true → b.tbl = c.tbl ∧ b.tblPoly = c.tblPoly)

/-- Two machines that differ at most in a table that is not valid. -/
def SameButStaleTableState (s t : State) : Prop :=
  SameButStaleTable s.block t.block ∧ s.cmd = t.cmd ∧ s.held = t.held ∧ s.events = t.events ∧ s.answers = t.answers

/-- The access that an event brings. -/
def arriving : Event → Option Access
  | .access a => some a
  | .complete => none
  | .hwReset _ => none

/-- The accesses in the machine: answered (oldest first), held, and still to arrive. -/
def accessesOf (s : State) : List Access :=
  (s.answers.map Prod.fst).reverse ++ s.held ++ s.events.filterMap arriving

/-! ## GF(2) -/

/-- The sum over the low `n` bits i of q of p * x^i (00_scope.md R7, 41_crc.md R120). -/
def gfMulBits (q p : Nat) : Nat → Nat
  | 0 => 0
  | i + 1 => gfMulBits q p i ^^^ (if q.testBit i then p <<< i else 0)

/-- The product of two polynomials over GF(2), bit k the coefficient of x^k (R120). -/
def gfMul (q p : Nat) : Nat := gfMulBits q p (bitlen q)

/-- e(x) is a multiple of p(x) (R130). -/
def GfMultiple (p e : Nat) : Prop := ∃ q, e = gfMul q p

/-- The packet of a word (R129): the word shifted by the degree, with its CRC in the low bits. -/
def packet (w p n : Nat) : Nat := (w <<< degree p) ||| crcCompute w p n

/-- The shift-register form of a table entry (R125): start with r = b, then `k` times shift left and, where r[7] was 1, add
P; 8 bits are kept. -/
def shiftRegister (p : Nat) : Nat → Nat → Nat
  | 0, r => r
  | k + 1, r => shiftRegister p k ((if r.testBit 7 then (r <<< 1) ^^^ p else r <<< 1) % 256)

/-! ## Hamming -/

/-- XOR of the positions 1 to 12 that hold a 1 (42_hamming.md R165). -/
def positionsXor (r : BitVec 12) : BitVec 4 :=
  (List.range 12).foldl (fun acc j => if atPos r (j + 1) then acc ^^^ BitVec.ofNat 4 (j + 1) else acc) 0#4

/-! ## R101 on the raw word -/

/-- The limit of step 5 of R101, where the command has one. -/
def limitR101 (op n d : Nat) : Option Nat :=
  match op with
  | 0x1 => some (2 ^ n - 1)
  | 0x2 => some (2 ^ (n + d) - 1)
  | 0x4 => some 0xFF
  | 0x8 => some 0xFF
  | 0x9 => some 0xFFF
  | _ => none

/-- `perform(op, n, P, D)` of R101. -/
def performR101 (op n : Nat) (b : Block) : Block :=
  match op with
  | 0x1 => performCrcCompute n b
  | 0x2 => performCrcVerify n b
  | 0x3 => ensureTable b.poly b
  | 0x4 => performCrcTblRead b
  | 0x8 => performHamEncode b
  | 0x9 => performHamDecode b
  | _ => b

/-- The operand is above the command's limit (step 5 of R101). -/
def overLimit (op n : Nat) (b : Block) : Bool :=
  match limitR101 op n b.deg with
  | some limit => decide (limit < b.din.toNat)
  | none => false

/-- `execute(c)` as R101 writes it, step by step, on the raw word. -/
def executeR101 (c : Word) (b : Block) : Block :=
  let op := (c &&& 0xF#32).toNat
  let n := ((c >>> 8) &&& 0x3F#32).toNat
  if c &&& 0xFFFFC0F0#32 ≠ 0#32 ∨ op ∉ [0x0, 0x1, 0x2, 0x3, 0x4, 0x8, 0x9] then b.raise .cmd
  else if op ∈ [0x1, 0x2] ∧ ¬(1 ≤ n ∧ n ≤ 32) then b.raise .len
  else
    let b := if op ∈ [0x1, 0x2, 0x3, 0x4] then b.effectivePoly else b
    if op ∈ [0x3, 0x4] ∧ b.deg ≠ 8 then b.raise .tbl
    else if overLimit op n b = true then b.raise .range
    else (performR101 op n b).accept

end Sys2Proof.Safety
end

