-- ==== Sys2Proof/Certificates/Slice0/Obligations.lean ====
section
/-! DEFINITION. The statements about the model. Each docstring names the rule of spec/ it formalises; OBLIGATIONS.json lists
them. The fields `events`, `held`, `answers` and `cmd` of State are the model's own way to write down what the rules of the bus
and of command execution speak of (log 3, 7, 8, 11): what arrives, what is held, what a host gets back, the word that runs. -/

section

open Sys2Proof Sys2Proof.Machine Sys2Proof.Safety

/-! ## Encoding (30_encoding.md) -/

/-- R81, R82: no bit of a well-formed command is lost. -/
def Obligations.DecodeOfEncodeIsIdentity : Prop :=
  ∀ i : Instr, i.wf = true → decode (encode i) = .ok i

/-- R81: a word that decodes is the encoding of what it decodes to. -/
def Obligations.EncodeOfDecodeIsIdentity : Prop :=
  ∀ (c : Word) (i : Instr), decode c = .ok i → i.wf = true ∧ encode i = c

/-- R87: decoding is total; `legal(c)` on the raw word; the command is the row with OP = c[3:0], and its DLEN c[13:8]. -/
def Obligations.EveryWordIsOneCommandOrIllegal : Prop :=
  ∀ c : Word,
    (legalWord c = true →
      ∃ i, decode c = .ok i ∧ i.op = c.extractLsb' 0 4 ∧ i.dlen = (c.extractLsb' 8 6).toNat) ∧
    (legalWord c = false → ∃ e, decode c = .error e)

/-- R82, R86, R89: words written out from the encoding. -/
def Obligations.SampleWordsDecode : Prop :=
  decode 0x00003F00#32 = .ok (.nop 63) ∧
  decode 0b00000000000000000000100000000001#32 = .ok (.crcCompute 8) ∧
  decode 0b00000000000000000000100000000010#32 = .ok (.crcVerify 8) ∧
  decode 0b00000000000000000000000000000011#32 = .ok (.crcTblLoad 0) ∧
  decode 0b00000000000000000011111100000100#32 = .ok (.crcTblRead 63) ∧
  decode 0b00000000000000000000000000001000#32 = .ok (.hamEncode 0) ∧
  decode 0b00000000000000000000000000001001#32 = .ok (.hamDecode 0) ∧
  decode 0x00000005#32 = .error .reservedOp ∧
  decode 0x00000010#32 = .error .rsv0 ∧
  decode 0x00004000#32 = .error .rsv1

/-! ## Registers and reset (10_state.md) -/

/-- R37: the reset value of every piece of state it gives one for, and the register reads after reset. Nothing is said of
`tbl` and `tbl_poly`, which R37 leaves unspecified. -/
def Obligations.ResetValues : Prop :=
  let b := State.reset.block
  (b.tblEn = true ∧ b.poly = 0x107#33 ∧ b.din = 0#64 ∧ b.crcOut = 0#32 ∧ b.hamWord = 0#12 ∧ b.hamSynd = 0#4 ∧
    b.hamOutc = .ok ∧ b.hamData = 0#8 ∧ b.vok = false ∧ b.lastErr = false ∧ b.errCmd = false ∧ b.errLen = false ∧
    b.errTbl = false ∧ b.errRange = false ∧ b.warnPoly = false ∧ b.busy = false ∧ b.tblValid = false) ∧
  (readReg .id b = 0x43480007#32 ∧ readReg .ctrl b = 0x00000001#32 ∧ readReg .status b = 0x00000000#32 ∧
    readReg .cmd b = 0#32 ∧ readReg .polyLo b = 0x00000107#32 ∧ readReg .polyHi b = 0#32 ∧ readReg .dinLo b = 0#32 ∧
    readReg .dinHi b = 0#32 ∧ readReg .crcOut b = 0#32 ∧ readReg .hamRes b = 0#32)

/-- R38: the offset of each register, in numbers, and the register at each offset of the window. -/
def Obligations.RegisterMapOffsets : Prop :=
  (Reg.id.offset = 0x00 ∧ Reg.ctrl.offset = 0x04 ∧ Reg.status.offset = 0x08 ∧ Reg.cmd.offset = 0x0C ∧
    Reg.polyLo.offset = 0x10 ∧ Reg.polyHi.offset = 0x14 ∧ Reg.dinLo.offset = 0x18 ∧ Reg.dinHi.offset = 0x1C ∧
    Reg.crcOut.offset = 0x20 ∧ Reg.hamRes.offset = 0x24 ∧ ∀ k : Fin 6, (Reg.reserved k).offset = 0x28 + 4 * k.val) ∧
  (regAt 0x00 = .id ∧ regAt 0x04 = .ctrl ∧ regAt 0x08 = .status ∧ regAt 0x0C = .cmd ∧ regAt 0x10 = .polyLo ∧
    regAt 0x14 = .polyHi ∧ regAt 0x18 = .dinLo ∧ regAt 0x1C = .dinHi ∧ regAt 0x20 = .crcOut ∧ regAt 0x24 = .hamRes ∧
    ∀ k : Fin 6, regAt (0x28 + 4 * k.val) = .reserved k) ∧
  (∀ r : Reg, r.offset % 4 = 0 ∧ r.offset < 0x40 ∧ regAt r.offset = r) ∧
  (∀ off, off % 4 = 0 → off < 0x40 → (regAt off).offset = off)

/-- R21, R22, R24 to R29, R36: the value a read of each register but STATUS and HAM_RES returns. -/
def Obligations.RegisterReadValues : Prop :=
  ∀ b : Block,
    readReg .id b = 0x43480007#32 ∧
    readReg .ctrl b = (if b.tblEn then 1#32 else 0#32) ∧
    readReg .cmd b = 0#32 ∧
    readReg .polyLo b = b.poly.extractLsb' 0 32 ∧
    readReg .polyHi b = (if b.poly.getLsbD 32 then 1#32 else 0#32) ∧
    readReg .dinLo b = b.din.extractLsb' 0 32 ∧
    readReg .dinHi b = b.din.extractLsb' 32 32 ∧
    readReg .crcOut b = b.crcOut ∧
    ∀ k, readReg (.reserved k) b = 0#32

/-- R23: the place of every flag in STATUS; reserved bits read 0. -/
def Obligations.StatusBitPlaces : Prop :=
  ∀ b : Block,
    let v := readReg .status b
    v.getLsbD 0 = b.busy ∧ v.getLsbD 1 = b.vok ∧ v.getLsbD 3 = b.lastErr ∧ v.getLsbD 8 = b.errCmd ∧
    v.getLsbD 9 = b.errLen ∧ v.getLsbD 10 = b.errTbl ∧ v.getLsbD 11 = b.errRange ∧ v.getLsbD 12 = b.warnPoly ∧
    ∀ j, (4 ≤ j ∧ j ≤ 7) ∨ 13 ≤ j → v.getLsbD j = false

/-- R33: STATUS.TBL_VALID is the tag compare at the time of the read; a write to POLY_LO or POLY_HI that takes `poly` away
from the tag clears it without any command, and writing the tagged value back sets it again. -/
def Obligations.TblValidIsTheTagCompare : Prop :=
  ∀ b : Block,
    ((readReg .status b).getLsbD 2 = true ↔ b.tblValid = true ∧ b.tblPoly.setWidth 33 = b.poly) ∧
    ((readReg .status b).getLsbD 2 = true → ∀ v : Word,
      (v ≠ b.poly.extractLsb' 0 32 → (readReg .status (writeReg .polyLo v b)).getLsbD 2 = false) ∧
      (readReg .status (writeReg .polyLo (b.poly.extractLsb' 0 32) (writeReg .polyLo v b))).getLsbD 2 = true ∧
      (readReg .status (writeReg .polyHi v b)).getLsbD 2 = !v.getLsbD 0 ∧
      (readReg .status (writeReg .polyHi 0#32 (writeReg .polyHi v b))).getLsbD 2 = true)

/-- R30: the fields of HAM_RES. -/
def Obligations.HamResFieldPlaces : Prop :=
  ∀ b : Block,
    let v := readReg .hamRes b
    v.extractLsb' 0 12 = b.hamWord ∧ v.extractLsb' 12 4 = b.hamSynd ∧ v.extractLsb' 18 6 = 0#6 ∧
    v.extractLsb' 24 8 = b.hamData ∧
    (b.hamOutc = .ok → v.extractLsb' 16 2 = 0#2) ∧ (b.hamOutc = .corrected → v.extractLsb' 16 2 = 1#2) ∧
    (b.hamOutc = .uncorrectable → v.extractLsb' 16 2 = 2#2)

/-! ## The bus (20_memory.md) -/

/-- R61: an access in the window of another size or at an address that is no multiple of 4 is answered with a bus error and
changes nothing; a 32-bit access at BASE + off, off a multiple of 4 below 0x40, is accepted. -/
def Obligations.BusErrorHasNoEffect : Prop :=
  ∀ (a : Access) (s s' : State), PerformsNext a s s' →
    (inWindow a → a.bytes ≠ 4 ∨ a.addr % 4 ≠ 0 →
      step s = .next { s' with answers := (a, .fault .busError) :: s.answers }) ∧
    (∀ off, acceptedAt off a →
      ∃ t r, step s = .next t ∧ t.answers = (a, r) :: s.answers ∧ ∀ f, r ≠ .fault f)

/-- The model's reading of U8 and R60 (log 6): an access outside the window changes nothing, whether the block is idle or
busy; its answer is not the block's. -/
def Obligations.OutsideWindowHasNoEffect : Prop :=
  ∀ (a : Access) (s : State), ¬inWindow a →
    (∀ s', PerformsNext a s s' → step s = .next { s' with answers := (a, .fault .outsideWindow) :: s.answers }) ∧
    (∀ es, s.block.busy = true → s.events = .access a :: es →
      step s = .next { s with events := es, answers := (a, .fault .outsideWindow) :: s.answers })

/-- R63: a read returns the register's value and changes no state, so that two reads in a row return the same. -/
def Obligations.ReadsHaveNoSideEffects : Prop :=
  ∀ (a : Access) (s s' : State) (off : Nat), PerformsNext a s s' → acceptedAt off a → a.op = .read →
    step s = .next { s' with answers := (a, .data (readReg (regAt off) s.block)) :: s.answers } ∧
    ∀ (a' : Access) (t t' : State), step s = .next t → PerformsNext a' t t' → acceptedAt off a' → a'.op = .read →
      step t = .next { t' with
        answers := (a', .data (readReg (regAt off) s.block)) :: (a, .data (readReg (regAt off) s.block)) :: s.answers }

/-- R25 to R28: a write to POLY_LO, POLY_HI, DIN_LO or DIN_HI sets its half and nothing else. -/
def Obligations.OperandRegisterWrites : Prop :=
  ∀ (a : Access) (s s' : State) (v : Word), PerformsNext a s s' → a.op = .write v →
    (acceptedAt 0x10 a →
      step s = .next { s' with
        block := { s.block with poly := s.block.poly.extractLsb' 32 1 ++ v }, answers := (a, .done) :: s.answers }) ∧
    (acceptedAt 0x14 a →
      step s = .next { s' with
        block := { s.block with poly := v.extractLsb' 0 1 ++ s.block.poly.extractLsb' 0 32 },
        answers := (a, .done) :: s.answers }) ∧
    (acceptedAt 0x18 a →
      step s = .next { s' with
        block := { s.block with din := s.block.din.extractLsb' 32 32 ++ v }, answers := (a, .done) :: s.answers }) ∧
    (acceptedAt 0x1C a →
      step s = .next { s' with
        block := { s.block with din := v ++ s.block.din.extractLsb' 0 32 }, answers := (a, .done) :: s.answers })

/-- R21, R29, R30, R36: a write to ID, CRC_OUT, HAM_RES or a reserved offset is ignored; a reserved offset reads 0 with no
other effect. -/
def Obligations.IgnoredWrites : Prop :=
  ∀ (a : Access) (s s' : State) (off : Nat), PerformsNext a s s' → acceptedAt off a →
    (∀ v, a.op = .write v → off = 0x00 ∨ 0x20 ≤ off → step s = .next { s' with answers := (a, .done) :: s.answers }) ∧
    (a.op = .read → 0x28 ≤ off → step s = .next { s' with answers := (a, .data 0#32) :: s.answers })

/-- R23, R205: a write to STATUS clears each sticky flag whose bit is written as 1 and changes nothing else. -/
def Obligations.StatusWriteClearsWrittenOnes : Prop :=
  ∀ (a : Access) (s s' : State) (v : Word), PerformsNext a s s' → acceptedAt 0x08 a → a.op = .write v →
    ∃ b : Block, step s = .next { s' with block := b, answers := (a, .done) :: s.answers } ∧
      (b.errCmd = true ↔ s.block.errCmd = true ∧ v.getLsbD 8 = false) ∧
      (b.errLen = true ↔ s.block.errLen = true ∧ v.getLsbD 9 = false) ∧
      (b.errTbl = true ↔ s.block.errTbl = true ∧ v.getLsbD 10 = false) ∧
      (b.errRange = true ↔ s.block.errRange = true ∧ v.getLsbD 11 = false) ∧
      (b.warnPoly = true ↔ s.block.warnPoly = true ∧ v.getLsbD 12 = false) ∧
      { b with
        errCmd := s.block.errCmd, errLen := s.block.errLen, errTbl := s.block.errTbl, errRange := s.block.errRange,
        warnPoly := s.block.warnPoly } = s.block

/-- R22: a write to CTRL with SRST = 0 sets TBL_EN and changes nothing else. -/
def Obligations.CtrlWriteSetsTblEn : Prop :=
  ∀ (a : Access) (s s' : State) (v : Word), PerformsNext a s s' → acceptedAt 0x04 a → a.op = .write v →
    v.getLsbD 1 = false →
    step s = .next { s' with block := { s.block with tblEn := v.getLsbD 0 }, answers := (a, .done) :: s.answers }

/-- R232: a write to CTRL with SRST = 1 is held while busy; performed, it resets every piece of state whatever its
other bits, before the next access; CTRL then reads 1. Nothing is said of `tbl` and `tbl_poly` (R37). -/
def Obligations.SoftResetIsAnAccess : Prop :=
  ∀ (a : Access) (s : State) (v : Word), acceptedAt 0x04 a → a.op = .write v → v.getLsbD 1 = true →
    (∀ es, s.block.busy = true → s.events = .access a :: es →
      step s = .next { s with events := es, held := s.held ++ [a] }) ∧
    (∀ s', PerformsNext a s s' →
      ∃ b : Block, step s = .next { s' with block := b, answers := (a, .done) :: s.answers } ∧
        withoutTable b = withoutTable State.reset.block ∧ readReg .ctrl b = 0x00000001#32)

/-- R64: a write to CMD is the only access that starts a command. -/
def Obligations.OnlyCmdWritesStartCommands : Prop :=
  ∀ (s t : State), s.block.busy = false → step s = .next t → t.block.busy = true →
    ∃ (a : Access) (s' : State) (c : Word), PerformsNext a s s' ∧ acceptedAt 0x0C a ∧ a.op = .write c ∧
      t = { s' with block := { s.block with busy := true }, cmd := c, answers := (a, .done) :: s.answers }

/-- R66: while busy every access to the window but a STATUS read is held with no effect and no answer; a STATUS read is
answered at once with BUSY = 1 and every other bit as before the command; the block does not change before `busy` falls;
then the held accesses are performed, oldest first. -/
def Obligations.BusyBlockHoldsAccesses : Prop :=
  (∀ (s : State) (a : Access) (es : List Event), s.block.busy = true → s.events = .access a :: es →
    (inWindow a → ¬statusRead a → step s = .next { s with events := es, held := s.held ++ [a] }) ∧
    (statusRead a → ∃ v : Word,
      step s = .next { s with events := es, answers := (a, .data v) :: s.answers } ∧ v.getLsbD 0 = true ∧
      ∀ j, 1 ≤ j → v.getLsbD j = (readReg .status { s.block with busy := false }).getLsbD j)) ∧
  (∀ s t : State, s.block.busy = true → step s = .next t → t.block.busy = true → t.block = s.block ∧ t.cmd = s.cmd) ∧
  (∀ (s : State) (a : Access) (as : List Access), s.block.busy = false → s.held = a :: as →
    ∃ t r, step s = .next t ∧ t.held = as ∧ t.events = s.events ∧ t.answers = (a, r) :: s.answers)

/-- R66, R67: no access is lost and none is performed twice. A step that is no hardware reset moves accesses from those to
arrive to the held and the answered ones, and keeps them all. -/
def Obligations.NoAccessIsLost : Prop :=
  ∀ s t : State, step s = .next t → (∀ keep es, s.events = .hwReset keep :: es → s.block.busy = false ∧ s.held ≠ []) →
    (accessesOf t).Perm (accessesOf s)

/-- R208, R72, R69: which master sends an access makes no difference to the block or to what the access gets back. -/
def Obligations.MastersAreAlike : Prop :=
  ∀ (a : Access) (m : Nat) (s : State),
    (performAccess { a with master := m } s).block = (performAccess a s).block ∧
    (performAccess { a with master := m } s).cmd = (performAccess a s).cmd ∧
    (∃ r, (performAccess a s).answers = (a, r) :: s.answers ∧
      (performAccess { a with master := m } s).answers = ({ a with master := m }, r) :: s.answers) ∧
    isHeld { a with master := m } = isHeld a

/-! ## Running commands (40_command.md) -/

/-- R100, R70: the command a write to CMD has started is the one whose word was written; when it completes, the step is
`exec` of the decoded command, after which `busy` is 0 and no copy of the word is kept. -/
def Obligations.StepRunsTheDecodedCommand : Prop :=
  ∀ (s s' : State) (i : Instr), CompletesNext s s' → decode s.cmd = .ok i →
    ∃ t, exec i s' = .next t ∧ step s = .next { t with block := { t.block with busy := false }, cmd := 0#32 }

/-- R100: from the CMD write on: `busy <- 1`, then `execute(c)` of R101, then `busy <- 0`, with no other state touched. -/
def Obligations.CmdWriteRunsItsWord : Prop :=
  ∀ (a : Access) (s s' : State) (c : Word), PerformsNext a s s' → acceptedAt 0x0C a → a.op = .write c →
    ∃ s1 : State,
      s1 = { s' with block := { s.block with busy := true }, cmd := c, answers := (a, .done) :: s.answers } ∧
      step s = .next s1 ∧
      ∀ s2, CompletesNext s1 s2 →
        step s1 = .next { s2 with
          block := { executeR101 c { s.block with busy := true } with busy := false }, cmd := 0#32 }

/-- R101: decoding and dispatching a command word does what R101 writes for the raw word, for every 32-bit word and every
state. -/
def Obligations.ExecuteIsR101 : Prop :=
  ∀ s : State, execute s = .next { s with block := executeR101 s.cmd s.block }

/-- R85: a command word rejects with ERR_CMD just when it is illegal; an illegal word sets ERR_CMD and LAST_ERR and does
nothing else. -/
def Obligations.IllegalWordIsRejected : Prop :=
  ∀ s : State,
    (legalWord s.cmd = false →
      execute s = .next { s with block := { s.block with errCmd := true, lastErr := true } }) ∧
    (legalWord s.cmd = true → ∃ t, execute s = .next t ∧ t.block.errCmd = s.block.errCmd)

/-- R202: no error stops the block; every step goes on to a next state, whatever the state. -/
def Obligations.NoStepStops : Prop := ∀ s : State, ∃ t, step s = .next t

/-- R241 as the model takes it (log 13): a command completes, or is abandoned by a reset, within as many steps as events are
left, and one more. -/
def Obligations.EveryCommandEnds : Prop :=
  ∀ s : State, s.block.busy = true →
    ∃ k t, k ≤ s.events.length + 1 ∧ Host.Core.run core k s = .next t ∧ t.block.busy = false ∧ t.cmd = 0#32

/-- R233, R231, R234, U13: a hardware reset while busy abandons the command: every piece of state takes its reset value, and
of the held accesses any may be dropped and any kept. While idle with nothing held it leaves the same reset values, an idle
block and nothing held. Nothing is said of `tbl` and `tbl_poly` (R37). -/
def Obligations.HardwareResetAbandonsTheCommand : Prop :=
  ∀ (s : State) (es : List Event),
    (s.block.busy = true →
      (∀ keep, ∃ t, step { s with events := .hwReset keep :: es } = .next t ∧
        withoutTable t.block = withoutTable State.reset.block ∧ t.cmd = 0#32 ∧ t.events = es ∧ t.answers = s.answers ∧
        t.held.Sublist s.held) ∧
      (∀ kept, List.Sublist kept s.held → ∃ keep t,
        step { s with events := .hwReset keep :: es } = .next t ∧ t.held = kept)) ∧
    (s.block.busy = false → s.held = [] → ∀ keep, ∃ t, step { s with events := .hwReset keep :: es } = .next t ∧
      withoutTable t.block = withoutTable State.reset.block ∧ t.cmd = 0#32 ∧ t.held = [] ∧ t.events = es ∧
      t.answers = s.answers)

/-- R102, R101: a rejected command sets the flag of one error and LAST_ERR and leaves everything else, but for a fallback of
the polynomial that came before a rejection at step 4 or 5 (ERR_TBL, ERR_RANGE). -/
def Obligations.RejectionIsPrecise : Prop :=
  ∀ s t : State, execute s = .next t → t.block.lastErr = true →
    ∃ (e : Err) (b : Block),
      (b = s.block ∨
        ((e = .tbl ∨ e = .range) ∧ s.block.poly.toNat < 2 ∧ b = { s.block with poly := 0x107#33, warnPoly := true })) ∧
      t = { s with
        block := { b with
          errCmd := b.errCmd || decide (e = .cmd), errLen := b.errLen || decide (e = .len),
          errTbl := b.errTbl || decide (e = .tbl), errRange := b.errRange || decide (e = .range), lastErr := true } }

/-- R103: an accepted command leaves STATUS[11:8]; it sets WARN_POLY only through the fallback. -/
def Obligations.AcceptedCommandKeepsStickyFlags : Prop :=
  ∀ s t : State, execute s = .next t → t.block.lastErr = false →
    t.block.errCmd = s.block.errCmd ∧ t.block.errLen = s.block.errLen ∧ t.block.errTbl = s.block.errTbl ∧
    t.block.errRange = s.block.errRange ∧
    (t.block.warnPoly = s.block.warnPoly ∨
      (t.block.warnPoly = true ∧ s.block.poly.toNat < 2 ∧ t.block.poly = 0x107#33))

/-- R107: a CRC command never reads or writes HAM_RES; a Hamming command never reads or writes the polynomial, CRC_OUT, VOK
or the table. "Never reads" is said by changing what is not read: the rest of the result stays the same. -/
def Obligations.FamiliesAreIndependent : Prop :=
  (∀ (i : Instr) (s : State), i.op.toNat ∈ [1, 2, 3, 4] → ∀ (w : BitVec 12) (y : BitVec 4) (o : Outc) (d : Byte),
    ∃ b : Block, exec i s = .next { s with block := b } ∧
      b.hamWord = s.block.hamWord ∧ b.hamSynd = s.block.hamSynd ∧ b.hamOutc = s.block.hamOutc ∧
      b.hamData = s.block.hamData ∧
      exec i { s with block := { s.block with hamWord := w, hamSynd := y, hamOutc := o, hamData := d } } =
        .next { s with block := { b with hamWord := w, hamSynd := y, hamOutc := o, hamData := d } }) ∧
  (∀ (i : Instr) (s : State), i.op.toNat ∈ [8, 9] →
    ∀ (p : BitVec 33) (r : Word) (v : Bool) (m : Memory) (q : BitVec 9) (u : Bool),
    ∃ b : Block, exec i s = .next { s with block := b } ∧
      b.poly = s.block.poly ∧ b.crcOut = s.block.crcOut ∧ b.vok = s.block.vok ∧ b.tbl = s.block.tbl ∧
      b.tblPoly = s.block.tblPoly ∧ b.tblValid = s.block.tblValid ∧
      exec i { s with block := { s.block with poly := p, crcOut := r, vok := v, tbl := m, tblPoly := q, tblValid := u } } =
        .next { s with block := { b with poly := p, crcOut := r, vok := v, tbl := m, tblPoly := q, tblValid := u } })

/-- R105: NOP clears LAST_ERR, whatever its DLEN, and does nothing else. -/
def Obligations.NopClearsLastErr : Prop :=
  ∀ (n : Nat) (s : State), exec (.nop n) s = .next { s with block := { s.block with lastErr := false } }

/-! ## CRC commands (41_crc.md) -/

/-- R131: an accepted CRC_COMPUTE writes the CRC, by either path, and changes nothing else but LAST_ERR, the fallback and,
on the table path only, the table, which is then the one of its polynomial. -/
def Obligations.CrcComputeResult : Prop :=
  ∀ (n : Nat) (s : State), Memory.wf s.block.tbl = true → TableSound s.block → 1 ≤ n → n ≤ 32 →
    s.block.din.toNat < 2 ^ n →
    ∃ b : Block, exec (.crcCompute n) s = .next { s with block := b } ∧
      b.crcOut.toNat = crcCompute s.block.din.toNat (usedPoly s.block).toNat n ∧
      (if s.block.tblEn = true ∧ n = 8 ∧ degree (usedPoly s.block).toNat = 8 then HoldsTableOf (usedPoly s.block) b
       else b.tbl = s.block.tbl ∧ b.tblPoly = s.block.tblPoly ∧ b.tblValid = s.block.tblValid) ∧
      withoutCache b =
        { withoutCache s.block with
          crcOut := b.crcOut, poly := usedPoly s.block, warnPoly := warnAfter s.block, lastErr := false }

/-- R132: an accepted CRC_VERIFY writes the residue and VOK, and changes nothing else but LAST_ERR and the fallback. -/
def Obligations.CrcVerifyResult : Prop :=
  ∀ (n : Nat) (s : State), 1 ≤ n → n ≤ 32 → s.block.din.toNat < 2 ^ (n + degree (usedPoly s.block).toNat) →
    ∃ r : Word, r.toNat = crcDiv s.block.din.toNat (usedPoly s.block).toNat n ∧
      exec (.crcVerify n) s = .next { s with
        block := { s.block with
          crcOut := r, vok := decide (r = 0#32), poly := usedPoly s.block, warnPoly := warnAfter s.block,
          lastErr := false } }

/-- R83, R101 steps 2 and 5, R131, R132: a data length outside 1..32 rejects CRC_COMPUTE and CRC_VERIFY with ERR_LEN, before
the fallback; an operand above the limit rejects with ERR_RANGE, and a fallback made before is kept. -/
def Obligations.CrcOperandChecks : Prop :=
  ∀ (n : Nat) (s : State),
    (n = 0 ∨ 32 < n →
      exec (.crcCompute n) s = .next { s with block := { s.block with errLen := true, lastErr := true } } ∧
      exec (.crcVerify n) s = .next { s with block := { s.block with errLen := true, lastErr := true } }) ∧
    (1 ≤ n → n ≤ 32 → 2 ^ n ≤ s.block.din.toNat →
      exec (.crcCompute n) s = .next { s with
        block := { s.block with
          poly := usedPoly s.block, warnPoly := warnAfter s.block, errRange := true, lastErr := true } }) ∧
    (1 ≤ n → n ≤ 32 → 2 ^ (n + degree (usedPoly s.block).toNat) ≤ s.block.din.toNat →
      exec (.crcVerify n) s = .next { s with
        block := { s.block with
          poly := usedPoly s.block, warnPoly := warnAfter s.block, errRange := true, lastErr := true } })

/-- R133: an accepted CRC_TBL_LOAD leaves the table of its polynomial, whatever DLEN, `din` and TBL_EN, and changes nothing
else but LAST_ERR and the fallback. -/
def Obligations.CrcTblLoadResult : Prop :=
  ∀ (n : Nat) (s : State), Memory.wf s.block.tbl = true → TableSound s.block → degree (usedPoly s.block).toNat = 8 →
    ∃ b : Block, exec (.crcTblLoad n) s = .next { s with block := b } ∧ HoldsTableOf (usedPoly s.block) b ∧
      withoutCache b =
        { withoutCache s.block with poly := usedPoly s.block, warnPoly := warnAfter s.block, lastErr := false }

/-- R134: an accepted CRC_TBL_READ returns the entry of its polynomial's table, which is the CRC of the index. -/
def Obligations.CrcTblReadResult : Prop :=
  ∀ (n : Nat) (s : State), Memory.wf s.block.tbl = true → TableSound s.block →
    degree (usedPoly s.block).toNat = 8 → s.block.din.toNat < 256 →
    ∃ b : Block, exec (.crcTblRead n) s = .next { s with block := b } ∧
      b.crcOut.toNat = crcCompute s.block.din.toNat (usedPoly s.block).toNat 8 ∧ HoldsTableOf (usedPoly s.block) b ∧
      withoutCache b =
        { withoutCache s.block with
          crcOut := b.crcOut, poly := usedPoly s.block, warnPoly := warnAfter s.block, lastErr := false }

/-- R133, R134: a polynomial whose degree is not 8 rejects the table commands with ERR_TBL, before the range check. -/
def Obligations.TableCommandNeedsDegreeEight : Prop :=
  ∀ (n : Nat) (s : State),
    (degree (usedPoly s.block).toNat ≠ 8 →
      exec (.crcTblLoad n) s = .next { s with block := { s.block with errTbl := true, lastErr := true } } ∧
      exec (.crcTblRead n) s = .next { s with block := { s.block with errTbl := true, lastErr := true } }) ∧
    (degree (usedPoly s.block).toNat = 8 → 256 ≤ s.block.din.toNat →
      exec (.crcTblRead n) s = .next { s with
        block := { s.block with
          poly := usedPoly s.block, warnPoly := warnAfter s.block, errRange := true, lastErr := true } })

/-- R121: every CRC command whose data length is legal replaces a polynomial of degree below 1 by DEFAULT_POLY and sets
WARN_POLY, whether it is then accepted or rejected; it leaves any other polynomial and WARN_POLY. -/
def Obligations.PolynomialFallback : Prop :=
  ∀ (i : Instr) (s t : State), i.op.toNat ∈ [1, 2, 3, 4] →
    (i.op.toNat ∈ [1, 2] → 1 ≤ i.dlen ∧ i.dlen ≤ 32) → exec i s = .next t →
    (s.block.poly.toNat < 2 → t.block.poly = 0x107#33 ∧ t.block.warnPoly = true) ∧
    (2 ≤ s.block.poly.toNat → t.block.poly = s.block.poly ∧ t.block.warnPoly = s.block.warnPoly)

/-- R126, R22: which path CRC_COMPUTE takes changes no result, only the table, its tag and its validity. -/
def Obligations.TablePathEqualsBitwisePath : Prop :=
  ∀ (n : Nat) (s : State) (e : Bool), Memory.wf s.block.tbl = true → TableSound s.block →
    ∃ b c : Block, exec (.crcCompute n) s = .next { s with block := b } ∧
      exec (.crcCompute n) { s with block := { s.block with tblEn := e } } = .next { s with block := c } ∧
      withoutCache c = { withoutCache b with tblEn := e } ∧
      (e = false → c.tbl = s.block.tbl ∧ c.tblPoly = s.block.tblPoly ∧ c.tblValid = s.block.tblValid)

/-- R127: a table that is valid for the polynomial is reused, not written; a second table command for the same polynomial
changes nothing but what the first left. -/
def Obligations.TableIsBuiltOncePerPolynomial : Prop :=
  (∀ (p : BitVec 33) (b : Block), b.tblValid = true → b.tblPoly.setWidth 33 = p → ensureTable p b = b) ∧
  (∀ (p : BitVec 33) (b : Block), degree p.toNat = 8 → ¬(b.tblValid = true ∧ b.tblPoly.setWidth 33 = p) →
    Memory.wf b.tbl = true → HoldsTableOf p (ensureTable p b)) ∧
  (∀ (n m : Nat) (s t : State), exec (.crcTblLoad n) s = .next t → t.block.lastErr = false →
    exec (.crcTblLoad m) t = .next t)

/-! ## CRC laws (41_crc.md) -/

/-- R128: the division gives the remainder, the only one of degree below d; it is linear; and the CRC of w is the remainder
of w(x) x^d. -/
def Obligations.DivisionGivesTheRemainder : Prop :=
  ∀ (p n v : Nat), 2 ≤ p → v < 2 ^ (n + degree p) →
    crcDiv v p n < 2 ^ degree p ∧ GfMultiple p (v ^^^ crcDiv v p n) ∧
    (∀ r, r < 2 ^ degree p → GfMultiple p (v ^^^ r) → r = crcDiv v p n) ∧
    (∀ w, w < 2 ^ (n + degree p) → crcDiv (v ^^^ w) p n = crcDiv v p n ^^^ crcDiv w p n) ∧
    (∀ w, w < 2 ^ n → GfMultiple p (gfMul w (2 ^ degree p) ^^^ crcCompute w p n))

/-- R129: a word with its CRC verifies. -/
def Obligations.PacketsVerify : Prop :=
  ∀ (p n w : Nat), 2 ≤ p → 1 ≤ n → n ≤ 32 → w < 2 ^ n → crcVerify (packet w p n) p n = true

/-- R130: an error is detected just when it is no multiple of the polynomial; single-bit errors and bursts follow. -/
def Obligations.ErrorDetection : Prop :=
  ∀ (p n w : Nat), 2 ≤ p → 1 ≤ n → n ≤ 32 → w < 2 ^ n →
    (∀ e, 0 < e → e < 2 ^ (n + degree p) → (crcVerify (packet w p n ^^^ e) p n = false ↔ ¬GfMultiple p e)) ∧
    (p ≠ 2 ^ degree p → ∀ k, k < n + degree p → crcVerify (packet w p n ^^^ 2 ^ k) p n = false) ∧
    (p = 2 ^ degree p → ∀ k, degree p ≤ k → k < n + degree p → crcVerify (packet w p n ^^^ 2 ^ k) p n = true) ∧
    (p % 2 = 1 → ∀ b j, 0 < b → b < 2 ^ degree p → b <<< j < 2 ^ (n + degree p) →
      crcVerify (packet w p n ^^^ (b <<< j)) p n = false)

/-- R135: the two readings of verification agree for an odd polynomial, and differ for P = x, n = 8, f = 1. -/
def Obligations.VerifyReadingsAgreeForOddPolynomials : Prop :=
  (∀ (p n f : Nat), 2 ≤ p → p % 2 = 1 → f < 2 ^ (n + degree p) →
    (crcResidue f p n = 0 ↔ crcCompute f p (n + degree p) = 0)) ∧
  crcResidue 1 2 8 = 1 ∧ crcCompute 1 2 9 = 0

/-- R125: after a build every entry is the CRC of its index, by the division and by the shift register; the tag is P[8:0]
and the table is valid; nothing else changes. -/
def Obligations.TableBuildFillsEveryEntry : Prop :=
  ∀ (p : BitVec 33) (b : Block), degree p.toNat = 8 → Memory.wf b.tbl = true →
    (∀ i : Byte, (Memory.read (buildTable p b).tbl i).toNat = crcCompute i.toNat p.toNat 8 ∧
      (Memory.read (buildTable p b).tbl i).toNat = shiftRegister p.toNat 8 i.toNat) ∧
    (buildTable p b).tblPoly = p.extractLsb' 0 9 ∧ (buildTable p b).tblValid = true ∧
    withoutCache (buildTable p b) = withoutCache b

/-! ## Hamming (42_hamming.md) -/

/-- R170: an accepted HAM_ENCODE writes all fields of HAM_RES and LAST_ERR, and nothing else. -/
def Obligations.HamEncodeResult : Prop :=
  ∀ (n : Nat) (s : State), s.block.din.toNat < 256 →
    exec (.hamEncode n) s = .next { s with
      block := { s.block with
        hamWord := hamEncode (s.block.din.extractLsb' 0 8), hamSynd := 0#4, hamOutc := .ok,
        hamData := s.block.din.extractLsb' 0 8, lastErr := false } }

/-- R171: an accepted HAM_DECODE writes all fields of HAM_RES and LAST_ERR, and nothing else; UNCORRECTABLE is no error. -/
def Obligations.HamDecodeResult : Prop :=
  ∀ (n : Nat) (s : State), s.block.din.toNat < 4096 →
    let r := s.block.din.extractLsb' 0 12
    exec (.hamDecode n) s = .next { s with
      block := { s.block with
        hamWord := (hamDecode r).1, hamSynd := hamSyndrome r, hamOutc := (hamDecode r).2.1,
        hamData := hamExtract (hamDecode r).1, lastErr := false } }

/-- R170, R171: an operand too wide rejects with ERR_RANGE; nothing is truncated. -/
def Obligations.HamOperandOutOfRange : Prop :=
  ∀ (n : Nat) (s : State),
    (256 ≤ s.block.din.toNat →
      exec (.hamEncode n) s = .next { s with block := { s.block with errRange := true, lastErr := true } }) ∧
    (4096 ≤ s.block.din.toNat →
      exec (.hamDecode n) s = .next { s with block := { s.block with errRange := true, lastErr := true } })

/-- R161, R162, R163: every bit of a codeword, in the bits of the byte. -/
def Obligations.CodewordBits : Prop :=
  ∀ b : Byte,
    let d := fun j => b.getLsbD j
    let w := hamEncode b
    w.getLsbD 11 = (d 7 ^^ d 6 ^^ d 4 ^^ d 3 ^^ d 1) ∧ w.getLsbD 10 = (d 7 ^^ d 5 ^^ d 4 ^^ d 2 ^^ d 1) ∧
    w.getLsbD 9 = d 7 ∧ w.getLsbD 8 = (d 6 ^^ d 5 ^^ d 4 ^^ d 0) ∧ w.getLsbD 7 = d 6 ∧ w.getLsbD 6 = d 5 ∧
    w.getLsbD 5 = d 4 ∧ w.getLsbD 4 = (d 3 ^^ d 2 ^^ d 1 ^^ d 0) ∧ w.getLsbD 3 = d 3 ∧ w.getLsbD 2 = d 2 ∧
    w.getLsbD 1 = d 1 ∧ w.getLsbD 0 = d 0

/-- R165: the syndrome is the XOR of the positions that hold a 1; it is linear; flipping position k changes it by k; a
codeword has syndrome 0. -/
def Obligations.SyndromeIsXorOfPositions : Prop :=
  (∀ r : BitVec 12, hamSyndrome r = positionsXor r) ∧
  (∀ r e : BitVec 12, hamSyndrome (r ^^^ e) = hamSyndrome r ^^^ hamSyndrome e) ∧
  (∀ (r : BitVec 12) (k : Nat), 1 ≤ k → k ≤ 12 → hamSyndrome (flipPos r k) = hamSyndrome r ^^^ BitVec.ofNat 4 k) ∧
  (∀ b : Byte, hamSyndrome (hamEncode b) = 0#4)

/-- R166, R167: the decoder by cases of the syndrome; the re-syndrome check never rejects a candidate. -/
def Obligations.DecodeBySyndrome : Prop :=
  ∀ r : BitVec 12,
    (hamSyndrome r = 0#4 → hamDecode r = (r, .ok, 0#4)) ∧
    (1 ≤ (hamSyndrome r).toNat → (hamSyndrome r).toNat ≤ 12 →
      hamDecode r = (r ^^^ (1#12 <<< (12 - (hamSyndrome r).toNat)), .corrected, hamSyndrome r)) ∧
    (13 ≤ (hamSyndrome r).toNat → hamDecode r = (r, .uncorrectable, hamSyndrome r))

/-- R168: two flipped positions of a codeword have the syndrome k1 XOR k2, never 0; the 15 listed pairs are uncorrectable
with the word unchanged, the others are reported corrected with a third bit flipped: a wrong codeword. -/
def Obligations.DoubleErrors : Prop :=
  ∀ (c : BitVec 12) (k1 k2 : Nat), hamSyndrome c = 0#4 → 1 ≤ k1 → k1 < k2 → k2 ≤ 12 →
    let r := flipPos (flipPos c k1) k2
    let pairs : List (Nat × Nat) :=
      [(1, 12), (2, 12), (3, 12), (4, 9), (4, 10), (4, 11), (5, 8), (5, 10), (5, 11), (6, 8), (6, 9), (6, 11), (7, 8),
        (7, 9), (7, 10)]
    hamSyndrome r = BitVec.ofNat 4 k1 ^^^ BitVec.ofNat 4 k2 ∧ hamSyndrome r ≠ 0#4 ∧
    ((k1, k2) ∈ pairs → hamDecode r = (r, .uncorrectable, hamSyndrome r)) ∧
    ((k1, k2) ∉ pairs → ∃ k3, 1 ≤ k3 ∧ k3 ≤ 12 ∧ k3 ≠ k1 ∧ k3 ≠ k2 ∧
      hamDecode r = (flipPos r k3, .corrected, hamSyndrome r) ∧ hamSyndrome (flipPos r k3) = 0#4 ∧ flipPos r k3 ≠ c)

/-- R172, R169: for either order of the data bits, a codeword decodes OK, a single-bit error at any index p is corrected
with the syndrome 12 - p, and the data byte comes back from the codeword. -/
def Obligations.SingleErrorsAreCorrected : Prop :=
  ∀ (o : Bool) (b : Byte),
    hamDecode (hamEncodeIn o b) = (hamEncodeIn o b, .ok, 0#4) ∧
    (∀ p : Fin 12, hamDecode (hamEncodeIn o b ^^^ (1#12 <<< p.val)) = (hamEncodeIn o b, .corrected, BitVec.ofNat 4 (12 - p.val))) ∧
    hamExtractIn o (hamEncodeIn o b) = b

/-- R160: the other order of the data bits reverses the byte on the way in and on the way out. -/
def Obligations.OtherDataBitOrder : Prop :=
  (∀ b : Byte, hamEncodeIn false b = hamEncodeIn true (rev8 b)) ∧
  (∀ w : BitVec 12, hamExtractIn false w = rev8 (hamExtractIn true w))

/-! ## The invariant, and what must not matter -/

/-- The invariant holds after reset. -/
def Obligations.ResetMeetsTheInvariant : Prop := Inv State.reset

/-- Every step keeps the invariant: the table RAM in canonical form, a valid table the table of its degree-8 tag, HAM_RES a
decode or encode result, no copy of a command word while idle, nothing held that R66 does not hold. -/
def Obligations.EveryStepKeepsTheInvariant : Prop :=
  ∀ s t : State, Inv s → step s = .next t → Inv t

/-- R31, R127, U1, U2: a table that is not valid, and its tag, reach nothing: two machines that differ only there step
alike, with the same answers. -/
def Obligations.StaleTableReachesNothing : Prop :=
  ∀ s t s' : State, SameButStaleTableState s t → step s = .next s' →
    ∃ t', step t = .next t' ∧ SameButStaleTableState s' t'

/-- R37, U1, U2: what hosts get back from reset on, for any accesses and any timing, is the same whatever the table and its
tag hold after reset (so no observation rests on the values of log 1 and log 2). -/
def Obligations.RunsDoNotDependOnResetTable : Prop :=
  ∀ (m : Memory) (p : BitVec 9) (es : List Event) (k : Nat) (t : State), Memory.wf m = true →
    Host.Core.run core k { State.reset with events := es } = .next t →
    ∃ t', Host.Core.run core k
        { State.reset with events := es, block := { State.reset.block with tbl := m, tblPoly := p } } = .next t' ∧
      t'.answers = t.answers ∧ t'.held = t.held

end
end

