-- ==== Sys2Proof/Laws/State.lean ====
section
/-! SUPPORT. One lemma per field per named update of Block and of State, true by rfl: what each update writes and what it
leaves. Later proofs cite these and unfold no record update. -/

namespace Sys2Proof.Machine

/-! ### Block.raise -/

@[simp] theorem Block.raise_tblEn (e : Err) (b : Block) : (b.raise e).tblEn = b.tblEn := rfl
@[simp] theorem Block.raise_poly (e : Err) (b : Block) : (b.raise e).poly = b.poly := rfl
@[simp] theorem Block.raise_din (e : Err) (b : Block) : (b.raise e).din = b.din := rfl
@[simp] theorem Block.raise_crcOut (e : Err) (b : Block) : (b.raise e).crcOut = b.crcOut := rfl
@[simp] theorem Block.raise_hamWord (e : Err) (b : Block) : (b.raise e).hamWord = b.hamWord := rfl
@[simp] theorem Block.raise_hamSynd (e : Err) (b : Block) : (b.raise e).hamSynd = b.hamSynd := rfl
@[simp] theorem Block.raise_hamOutc (e : Err) (b : Block) : (b.raise e).hamOutc = b.hamOutc := rfl
@[simp] theorem Block.raise_hamData (e : Err) (b : Block) : (b.raise e).hamData = b.hamData := rfl
@[simp] theorem Block.raise_vok (e : Err) (b : Block) : (b.raise e).vok = b.vok := rfl
@[simp] theorem Block.raise_lastErr (e : Err) (b : Block) : (b.raise e).lastErr = true := rfl
@[simp] theorem Block.raise_errCmd (e : Err) (b : Block) : (b.raise e).errCmd = (b.errCmd || decide (e = .cmd)) := rfl
@[simp] theorem Block.raise_errLen (e : Err) (b : Block) : (b.raise e).errLen = (b.errLen || decide (e = .len)) := rfl
@[simp] theorem Block.raise_errTbl (e : Err) (b : Block) : (b.raise e).errTbl = (b.errTbl || decide (e = .tbl)) := rfl
@[simp] theorem Block.raise_errRange (e : Err) (b : Block) : (b.raise e).errRange = (b.errRange || decide (e = .range)) := rfl
@[simp] theorem Block.raise_warnPoly (e : Err) (b : Block) : (b.raise e).warnPoly = b.warnPoly := rfl
@[simp] theorem Block.raise_busy (e : Err) (b : Block) : (b.raise e).busy = b.busy := rfl
@[simp] theorem Block.raise_tbl (e : Err) (b : Block) : (b.raise e).tbl = b.tbl := rfl
@[simp] theorem Block.raise_tblPoly (e : Err) (b : Block) : (b.raise e).tblPoly = b.tblPoly := rfl
@[simp] theorem Block.raise_tblValid (e : Err) (b : Block) : (b.raise e).tblValid = b.tblValid := rfl

/-! ### Block.accept -/

@[simp] theorem Block.accept_tblEn (b : Block) : b.accept.tblEn = b.tblEn := rfl
@[simp] theorem Block.accept_poly (b : Block) : b.accept.poly = b.poly := rfl
@[simp] theorem Block.accept_din (b : Block) : b.accept.din = b.din := rfl
@[simp] theorem Block.accept_crcOut (b : Block) : b.accept.crcOut = b.crcOut := rfl
@[simp] theorem Block.accept_hamWord (b : Block) : b.accept.hamWord = b.hamWord := rfl
@[simp] theorem Block.accept_hamSynd (b : Block) : b.accept.hamSynd = b.hamSynd := rfl
@[simp] theorem Block.accept_hamOutc (b : Block) : b.accept.hamOutc = b.hamOutc := rfl
@[simp] theorem Block.accept_hamData (b : Block) : b.accept.hamData = b.hamData := rfl
@[simp] theorem Block.accept_vok (b : Block) : b.accept.vok = b.vok := rfl
@[simp] theorem Block.accept_lastErr (b : Block) : b.accept.lastErr = false := rfl
@[simp] theorem Block.accept_errCmd (b : Block) : b.accept.errCmd = b.errCmd := rfl
@[simp] theorem Block.accept_errLen (b : Block) : b.accept.errLen = b.errLen := rfl
@[simp] theorem Block.accept_errTbl (b : Block) : b.accept.errTbl = b.errTbl := rfl
@[simp] theorem Block.accept_errRange (b : Block) : b.accept.errRange = b.errRange := rfl
@[simp] theorem Block.accept_warnPoly (b : Block) : b.accept.warnPoly = b.warnPoly := rfl
@[simp] theorem Block.accept_busy (b : Block) : b.accept.busy = b.busy := rfl
@[simp] theorem Block.accept_tbl (b : Block) : b.accept.tbl = b.tbl := rfl
@[simp] theorem Block.accept_tblPoly (b : Block) : b.accept.tblPoly = b.tblPoly := rfl
@[simp] theorem Block.accept_tblValid (b : Block) : b.accept.tblValid = b.tblValid := rfl

/-! ### Block.clearFlags -/

@[simp] theorem Block.clearFlags_tblEn (v : Word) (b : Block) : (b.clearFlags v).tblEn = b.tblEn := rfl
@[simp] theorem Block.clearFlags_poly (v : Word) (b : Block) : (b.clearFlags v).poly = b.poly := rfl
@[simp] theorem Block.clearFlags_din (v : Word) (b : Block) : (b.clearFlags v).din = b.din := rfl
@[simp] theorem Block.clearFlags_crcOut (v : Word) (b : Block) : (b.clearFlags v).crcOut = b.crcOut := rfl
@[simp] theorem Block.clearFlags_hamWord (v : Word) (b : Block) : (b.clearFlags v).hamWord = b.hamWord := rfl
@[simp] theorem Block.clearFlags_hamSynd (v : Word) (b : Block) : (b.clearFlags v).hamSynd = b.hamSynd := rfl
@[simp] theorem Block.clearFlags_hamOutc (v : Word) (b : Block) : (b.clearFlags v).hamOutc = b.hamOutc := rfl
@[simp] theorem Block.clearFlags_hamData (v : Word) (b : Block) : (b.clearFlags v).hamData = b.hamData := rfl
@[simp] theorem Block.clearFlags_vok (v : Word) (b : Block) : (b.clearFlags v).vok = b.vok := rfl
@[simp] theorem Block.clearFlags_lastErr (v : Word) (b : Block) : (b.clearFlags v).lastErr = b.lastErr := rfl
@[simp] theorem Block.clearFlags_errCmd (v : Word) (b : Block) : (b.clearFlags v).errCmd = (b.errCmd && !v.getLsbD 8) := rfl
@[simp] theorem Block.clearFlags_errLen (v : Word) (b : Block) : (b.clearFlags v).errLen = (b.errLen && !v.getLsbD 9) := rfl
@[simp] theorem Block.clearFlags_errTbl (v : Word) (b : Block) : (b.clearFlags v).errTbl = (b.errTbl && !v.getLsbD 10) := rfl
@[simp] theorem Block.clearFlags_errRange (v : Word) (b : Block) : (b.clearFlags v).errRange = (b.errRange && !v.getLsbD 11) := rfl
@[simp] theorem Block.clearFlags_warnPoly (v : Word) (b : Block) : (b.clearFlags v).warnPoly = (b.warnPoly && !v.getLsbD 12) := rfl
@[simp] theorem Block.clearFlags_busy (v : Word) (b : Block) : (b.clearFlags v).busy = b.busy := rfl
@[simp] theorem Block.clearFlags_tbl (v : Word) (b : Block) : (b.clearFlags v).tbl = b.tbl := rfl
@[simp] theorem Block.clearFlags_tblPoly (v : Word) (b : Block) : (b.clearFlags v).tblPoly = b.tblPoly := rfl
@[simp] theorem Block.clearFlags_tblValid (v : Word) (b : Block) : (b.clearFlags v).tblValid = b.tblValid := rfl

/-! ### Block.setCrcOut -/

@[simp] theorem Block.setCrcOut_tblEn (r : Word) (b : Block) : (b.setCrcOut r).tblEn = b.tblEn := rfl
@[simp] theorem Block.setCrcOut_poly (r : Word) (b : Block) : (b.setCrcOut r).poly = b.poly := rfl
@[simp] theorem Block.setCrcOut_din (r : Word) (b : Block) : (b.setCrcOut r).din = b.din := rfl
@[simp] theorem Block.setCrcOut_crcOut (r : Word) (b : Block) : (b.setCrcOut r).crcOut = r := rfl
@[simp] theorem Block.setCrcOut_hamWord (r : Word) (b : Block) : (b.setCrcOut r).hamWord = b.hamWord := rfl
@[simp] theorem Block.setCrcOut_hamSynd (r : Word) (b : Block) : (b.setCrcOut r).hamSynd = b.hamSynd := rfl
@[simp] theorem Block.setCrcOut_hamOutc (r : Word) (b : Block) : (b.setCrcOut r).hamOutc = b.hamOutc := rfl
@[simp] theorem Block.setCrcOut_hamData (r : Word) (b : Block) : (b.setCrcOut r).hamData = b.hamData := rfl
@[simp] theorem Block.setCrcOut_vok (r : Word) (b : Block) : (b.setCrcOut r).vok = b.vok := rfl
@[simp] theorem Block.setCrcOut_lastErr (r : Word) (b : Block) : (b.setCrcOut r).lastErr = b.lastErr := rfl
@[simp] theorem Block.setCrcOut_errCmd (r : Word) (b : Block) : (b.setCrcOut r).errCmd = b.errCmd := rfl
@[simp] theorem Block.setCrcOut_errLen (r : Word) (b : Block) : (b.setCrcOut r).errLen = b.errLen := rfl
@[simp] theorem Block.setCrcOut_errTbl (r : Word) (b : Block) : (b.setCrcOut r).errTbl = b.errTbl := rfl
@[simp] theorem Block.setCrcOut_errRange (r : Word) (b : Block) : (b.setCrcOut r).errRange = b.errRange := rfl
@[simp] theorem Block.setCrcOut_warnPoly (r : Word) (b : Block) : (b.setCrcOut r).warnPoly = b.warnPoly := rfl
@[simp] theorem Block.setCrcOut_busy (r : Word) (b : Block) : (b.setCrcOut r).busy = b.busy := rfl
@[simp] theorem Block.setCrcOut_tbl (r : Word) (b : Block) : (b.setCrcOut r).tbl = b.tbl := rfl
@[simp] theorem Block.setCrcOut_tblPoly (r : Word) (b : Block) : (b.setCrcOut r).tblPoly = b.tblPoly := rfl
@[simp] theorem Block.setCrcOut_tblValid (r : Word) (b : Block) : (b.setCrcOut r).tblValid = b.tblValid := rfl

/-! ### Block.setVok -/

@[simp] theorem Block.setVok_tblEn (v : Bool) (b : Block) : (b.setVok v).tblEn = b.tblEn := rfl
@[simp] theorem Block.setVok_poly (v : Bool) (b : Block) : (b.setVok v).poly = b.poly := rfl
@[simp] theorem Block.setVok_din (v : Bool) (b : Block) : (b.setVok v).din = b.din := rfl
@[simp] theorem Block.setVok_crcOut (v : Bool) (b : Block) : (b.setVok v).crcOut = b.crcOut := rfl
@[simp] theorem Block.setVok_hamWord (v : Bool) (b : Block) : (b.setVok v).hamWord = b.hamWord := rfl
@[simp] theorem Block.setVok_hamSynd (v : Bool) (b : Block) : (b.setVok v).hamSynd = b.hamSynd := rfl
@[simp] theorem Block.setVok_hamOutc (v : Bool) (b : Block) : (b.setVok v).hamOutc = b.hamOutc := rfl
@[simp] theorem Block.setVok_hamData (v : Bool) (b : Block) : (b.setVok v).hamData = b.hamData := rfl
@[simp] theorem Block.setVok_vok (v : Bool) (b : Block) : (b.setVok v).vok = v := rfl
@[simp] theorem Block.setVok_lastErr (v : Bool) (b : Block) : (b.setVok v).lastErr = b.lastErr := rfl
@[simp] theorem Block.setVok_errCmd (v : Bool) (b : Block) : (b.setVok v).errCmd = b.errCmd := rfl
@[simp] theorem Block.setVok_errLen (v : Bool) (b : Block) : (b.setVok v).errLen = b.errLen := rfl
@[simp] theorem Block.setVok_errTbl (v : Bool) (b : Block) : (b.setVok v).errTbl = b.errTbl := rfl
@[simp] theorem Block.setVok_errRange (v : Bool) (b : Block) : (b.setVok v).errRange = b.errRange := rfl
@[simp] theorem Block.setVok_warnPoly (v : Bool) (b : Block) : (b.setVok v).warnPoly = b.warnPoly := rfl
@[simp] theorem Block.setVok_busy (v : Bool) (b : Block) : (b.setVok v).busy = b.busy := rfl
@[simp] theorem Block.setVok_tbl (v : Bool) (b : Block) : (b.setVok v).tbl = b.tbl := rfl
@[simp] theorem Block.setVok_tblPoly (v : Bool) (b : Block) : (b.setVok v).tblPoly = b.tblPoly := rfl
@[simp] theorem Block.setVok_tblValid (v : Bool) (b : Block) : (b.setVok v).tblValid = b.tblValid := rfl

/-! ### Block.setHamRes -/

@[simp] theorem Block.setHamRes_tblEn (w : BitVec 12) (y : BitVec 4) (o : Outc) (d : Byte) (b : Block) : (b.setHamRes w y o d).tblEn = b.tblEn := rfl
@[simp] theorem Block.setHamRes_poly (w : BitVec 12) (y : BitVec 4) (o : Outc) (d : Byte) (b : Block) : (b.setHamRes w y o d).poly = b.poly := rfl
@[simp] theorem Block.setHamRes_din (w : BitVec 12) (y : BitVec 4) (o : Outc) (d : Byte) (b : Block) : (b.setHamRes w y o d).din = b.din := rfl
@[simp] theorem Block.setHamRes_crcOut (w : BitVec 12) (y : BitVec 4) (o : Outc) (d : Byte) (b : Block) : (b.setHamRes w y o d).crcOut = b.crcOut := rfl
@[simp] theorem Block.setHamRes_hamWord (w : BitVec 12) (y : BitVec 4) (o : Outc) (d : Byte) (b : Block) : (b.setHamRes w y o d).hamWord = w := rfl
@[simp] theorem Block.setHamRes_hamSynd (w : BitVec 12) (y : BitVec 4) (o : Outc) (d : Byte) (b : Block) : (b.setHamRes w y o d).hamSynd = y := rfl
@[simp] theorem Block.setHamRes_hamOutc (w : BitVec 12) (y : BitVec 4) (o : Outc) (d : Byte) (b : Block) : (b.setHamRes w y o d).hamOutc = o := rfl
@[simp] theorem Block.setHamRes_hamData (w : BitVec 12) (y : BitVec 4) (o : Outc) (d : Byte) (b : Block) : (b.setHamRes w y o d).hamData = d := rfl
@[simp] theorem Block.setHamRes_vok (w : BitVec 12) (y : BitVec 4) (o : Outc) (d : Byte) (b : Block) : (b.setHamRes w y o d).vok = b.vok := rfl
@[simp] theorem Block.setHamRes_lastErr (w : BitVec 12) (y : BitVec 4) (o : Outc) (d : Byte) (b : Block) : (b.setHamRes w y o d).lastErr = b.lastErr := rfl
@[simp] theorem Block.setHamRes_errCmd (w : BitVec 12) (y : BitVec 4) (o : Outc) (d : Byte) (b : Block) : (b.setHamRes w y o d).errCmd = b.errCmd := rfl
@[simp] theorem Block.setHamRes_errLen (w : BitVec 12) (y : BitVec 4) (o : Outc) (d : Byte) (b : Block) : (b.setHamRes w y o d).errLen = b.errLen := rfl
@[simp] theorem Block.setHamRes_errTbl (w : BitVec 12) (y : BitVec 4) (o : Outc) (d : Byte) (b : Block) : (b.setHamRes w y o d).errTbl = b.errTbl := rfl
@[simp] theorem Block.setHamRes_errRange (w : BitVec 12) (y : BitVec 4) (o : Outc) (d : Byte) (b : Block) : (b.setHamRes w y o d).errRange = b.errRange := rfl
@[simp] theorem Block.setHamRes_warnPoly (w : BitVec 12) (y : BitVec 4) (o : Outc) (d : Byte) (b : Block) : (b.setHamRes w y o d).warnPoly = b.warnPoly := rfl
@[simp] theorem Block.setHamRes_busy (w : BitVec 12) (y : BitVec 4) (o : Outc) (d : Byte) (b : Block) : (b.setHamRes w y o d).busy = b.busy := rfl
@[simp] theorem Block.setHamRes_tbl (w : BitVec 12) (y : BitVec 4) (o : Outc) (d : Byte) (b : Block) : (b.setHamRes w y o d).tbl = b.tbl := rfl
@[simp] theorem Block.setHamRes_tblPoly (w : BitVec 12) (y : BitVec 4) (o : Outc) (d : Byte) (b : Block) : (b.setHamRes w y o d).tblPoly = b.tblPoly := rfl
@[simp] theorem Block.setHamRes_tblValid (w : BitVec 12) (y : BitVec 4) (o : Outc) (d : Byte) (b : Block) : (b.setHamRes w y o d).tblValid = b.tblValid := rfl

/-! ### Block.setBusy -/

@[simp] theorem Block.setBusy_tblEn (v : Bool) (b : Block) : (b.setBusy v).tblEn = b.tblEn := rfl
@[simp] theorem Block.setBusy_poly (v : Bool) (b : Block) : (b.setBusy v).poly = b.poly := rfl
@[simp] theorem Block.setBusy_din (v : Bool) (b : Block) : (b.setBusy v).din = b.din := rfl
@[simp] theorem Block.setBusy_crcOut (v : Bool) (b : Block) : (b.setBusy v).crcOut = b.crcOut := rfl
@[simp] theorem Block.setBusy_hamWord (v : Bool) (b : Block) : (b.setBusy v).hamWord = b.hamWord := rfl
@[simp] theorem Block.setBusy_hamSynd (v : Bool) (b : Block) : (b.setBusy v).hamSynd = b.hamSynd := rfl
@[simp] theorem Block.setBusy_hamOutc (v : Bool) (b : Block) : (b.setBusy v).hamOutc = b.hamOutc := rfl
@[simp] theorem Block.setBusy_hamData (v : Bool) (b : Block) : (b.setBusy v).hamData = b.hamData := rfl
@[simp] theorem Block.setBusy_vok (v : Bool) (b : Block) : (b.setBusy v).vok = b.vok := rfl
@[simp] theorem Block.setBusy_lastErr (v : Bool) (b : Block) : (b.setBusy v).lastErr = b.lastErr := rfl
@[simp] theorem Block.setBusy_errCmd (v : Bool) (b : Block) : (b.setBusy v).errCmd = b.errCmd := rfl
@[simp] theorem Block.setBusy_errLen (v : Bool) (b : Block) : (b.setBusy v).errLen = b.errLen := rfl
@[simp] theorem Block.setBusy_errTbl (v : Bool) (b : Block) : (b.setBusy v).errTbl = b.errTbl := rfl
@[simp] theorem Block.setBusy_errRange (v : Bool) (b : Block) : (b.setBusy v).errRange = b.errRange := rfl
@[simp] theorem Block.setBusy_warnPoly (v : Bool) (b : Block) : (b.setBusy v).warnPoly = b.warnPoly := rfl
@[simp] theorem Block.setBusy_busy (v : Bool) (b : Block) : (b.setBusy v).busy = v := rfl
@[simp] theorem Block.setBusy_tbl (v : Bool) (b : Block) : (b.setBusy v).tbl = b.tbl := rfl
@[simp] theorem Block.setBusy_tblPoly (v : Bool) (b : Block) : (b.setBusy v).tblPoly = b.tblPoly := rfl
@[simp] theorem Block.setBusy_tblValid (v : Bool) (b : Block) : (b.setBusy v).tblValid = b.tblValid := rfl

/-! ### Block.setTblEn -/

@[simp] theorem Block.setTblEn_tblEn (v : Bool) (b : Block) : (b.setTblEn v).tblEn = v := rfl
@[simp] theorem Block.setTblEn_poly (v : Bool) (b : Block) : (b.setTblEn v).poly = b.poly := rfl
@[simp] theorem Block.setTblEn_din (v : Bool) (b : Block) : (b.setTblEn v).din = b.din := rfl
@[simp] theorem Block.setTblEn_crcOut (v : Bool) (b : Block) : (b.setTblEn v).crcOut = b.crcOut := rfl
@[simp] theorem Block.setTblEn_hamWord (v : Bool) (b : Block) : (b.setTblEn v).hamWord = b.hamWord := rfl
@[simp] theorem Block.setTblEn_hamSynd (v : Bool) (b : Block) : (b.setTblEn v).hamSynd = b.hamSynd := rfl
@[simp] theorem Block.setTblEn_hamOutc (v : Bool) (b : Block) : (b.setTblEn v).hamOutc = b.hamOutc := rfl
@[simp] theorem Block.setTblEn_hamData (v : Bool) (b : Block) : (b.setTblEn v).hamData = b.hamData := rfl
@[simp] theorem Block.setTblEn_vok (v : Bool) (b : Block) : (b.setTblEn v).vok = b.vok := rfl
@[simp] theorem Block.setTblEn_lastErr (v : Bool) (b : Block) : (b.setTblEn v).lastErr = b.lastErr := rfl
@[simp] theorem Block.setTblEn_errCmd (v : Bool) (b : Block) : (b.setTblEn v).errCmd = b.errCmd := rfl
@[simp] theorem Block.setTblEn_errLen (v : Bool) (b : Block) : (b.setTblEn v).errLen = b.errLen := rfl
@[simp] theorem Block.setTblEn_errTbl (v : Bool) (b : Block) : (b.setTblEn v).errTbl = b.errTbl := rfl
@[simp] theorem Block.setTblEn_errRange (v : Bool) (b : Block) : (b.setTblEn v).errRange = b.errRange := rfl
@[simp] theorem Block.setTblEn_warnPoly (v : Bool) (b : Block) : (b.setTblEn v).warnPoly = b.warnPoly := rfl
@[simp] theorem Block.setTblEn_busy (v : Bool) (b : Block) : (b.setTblEn v).busy = b.busy := rfl
@[simp] theorem Block.setTblEn_tbl (v : Bool) (b : Block) : (b.setTblEn v).tbl = b.tbl := rfl
@[simp] theorem Block.setTblEn_tblPoly (v : Bool) (b : Block) : (b.setTblEn v).tblPoly = b.tblPoly := rfl
@[simp] theorem Block.setTblEn_tblValid (v : Bool) (b : Block) : (b.setTblEn v).tblValid = b.tblValid := rfl

/-! ### Block.setPoly -/

@[simp] theorem Block.setPoly_tblEn (p : BitVec 33) (b : Block) : (b.setPoly p).tblEn = b.tblEn := rfl
@[simp] theorem Block.setPoly_poly (p : BitVec 33) (b : Block) : (b.setPoly p).poly = p := rfl
@[simp] theorem Block.setPoly_din (p : BitVec 33) (b : Block) : (b.setPoly p).din = b.din := rfl
@[simp] theorem Block.setPoly_crcOut (p : BitVec 33) (b : Block) : (b.setPoly p).crcOut = b.crcOut := rfl
@[simp] theorem Block.setPoly_hamWord (p : BitVec 33) (b : Block) : (b.setPoly p).hamWord = b.hamWord := rfl
@[simp] theorem Block.setPoly_hamSynd (p : BitVec 33) (b : Block) : (b.setPoly p).hamSynd = b.hamSynd := rfl
@[simp] theorem Block.setPoly_hamOutc (p : BitVec 33) (b : Block) : (b.setPoly p).hamOutc = b.hamOutc := rfl
@[simp] theorem Block.setPoly_hamData (p : BitVec 33) (b : Block) : (b.setPoly p).hamData = b.hamData := rfl
@[simp] theorem Block.setPoly_vok (p : BitVec 33) (b : Block) : (b.setPoly p).vok = b.vok := rfl
@[simp] theorem Block.setPoly_lastErr (p : BitVec 33) (b : Block) : (b.setPoly p).lastErr = b.lastErr := rfl
@[simp] theorem Block.setPoly_errCmd (p : BitVec 33) (b : Block) : (b.setPoly p).errCmd = b.errCmd := rfl
@[simp] theorem Block.setPoly_errLen (p : BitVec 33) (b : Block) : (b.setPoly p).errLen = b.errLen := rfl
@[simp] theorem Block.setPoly_errTbl (p : BitVec 33) (b : Block) : (b.setPoly p).errTbl = b.errTbl := rfl
@[simp] theorem Block.setPoly_errRange (p : BitVec 33) (b : Block) : (b.setPoly p).errRange = b.errRange := rfl
@[simp] theorem Block.setPoly_warnPoly (p : BitVec 33) (b : Block) : (b.setPoly p).warnPoly = b.warnPoly := rfl
@[simp] theorem Block.setPoly_busy (p : BitVec 33) (b : Block) : (b.setPoly p).busy = b.busy := rfl
@[simp] theorem Block.setPoly_tbl (p : BitVec 33) (b : Block) : (b.setPoly p).tbl = b.tbl := rfl
@[simp] theorem Block.setPoly_tblPoly (p : BitVec 33) (b : Block) : (b.setPoly p).tblPoly = b.tblPoly := rfl
@[simp] theorem Block.setPoly_tblValid (p : BitVec 33) (b : Block) : (b.setPoly p).tblValid = b.tblValid := rfl

/-! ### Block.setDin -/

@[simp] theorem Block.setDin_tblEn (v : BitVec 64) (b : Block) : (b.setDin v).tblEn = b.tblEn := rfl
@[simp] theorem Block.setDin_poly (v : BitVec 64) (b : Block) : (b.setDin v).poly = b.poly := rfl
@[simp] theorem Block.setDin_din (v : BitVec 64) (b : Block) : (b.setDin v).din = v := rfl
@[simp] theorem Block.setDin_crcOut (v : BitVec 64) (b : Block) : (b.setDin v).crcOut = b.crcOut := rfl
@[simp] theorem Block.setDin_hamWord (v : BitVec 64) (b : Block) : (b.setDin v).hamWord = b.hamWord := rfl
@[simp] theorem Block.setDin_hamSynd (v : BitVec 64) (b : Block) : (b.setDin v).hamSynd = b.hamSynd := rfl
@[simp] theorem Block.setDin_hamOutc (v : BitVec 64) (b : Block) : (b.setDin v).hamOutc = b.hamOutc := rfl
@[simp] theorem Block.setDin_hamData (v : BitVec 64) (b : Block) : (b.setDin v).hamData = b.hamData := rfl
@[simp] theorem Block.setDin_vok (v : BitVec 64) (b : Block) : (b.setDin v).vok = b.vok := rfl
@[simp] theorem Block.setDin_lastErr (v : BitVec 64) (b : Block) : (b.setDin v).lastErr = b.lastErr := rfl
@[simp] theorem Block.setDin_errCmd (v : BitVec 64) (b : Block) : (b.setDin v).errCmd = b.errCmd := rfl
@[simp] theorem Block.setDin_errLen (v : BitVec 64) (b : Block) : (b.setDin v).errLen = b.errLen := rfl
@[simp] theorem Block.setDin_errTbl (v : BitVec 64) (b : Block) : (b.setDin v).errTbl = b.errTbl := rfl
@[simp] theorem Block.setDin_errRange (v : BitVec 64) (b : Block) : (b.setDin v).errRange = b.errRange := rfl
@[simp] theorem Block.setDin_warnPoly (v : BitVec 64) (b : Block) : (b.setDin v).warnPoly = b.warnPoly := rfl
@[simp] theorem Block.setDin_busy (v : BitVec 64) (b : Block) : (b.setDin v).busy = b.busy := rfl
@[simp] theorem Block.setDin_tbl (v : BitVec 64) (b : Block) : (b.setDin v).tbl = b.tbl := rfl
@[simp] theorem Block.setDin_tblPoly (v : BitVec 64) (b : Block) : (b.setDin v).tblPoly = b.tblPoly := rfl
@[simp] theorem Block.setDin_tblValid (v : BitVec 64) (b : Block) : (b.setDin v).tblValid = b.tblValid := rfl

/-! ### Block.setTable -/

@[simp] theorem Block.setTable_tblEn (m : Memory) (p : BitVec 9) (b : Block) : (b.setTable m p).tblEn = b.tblEn := rfl
@[simp] theorem Block.setTable_poly (m : Memory) (p : BitVec 9) (b : Block) : (b.setTable m p).poly = b.poly := rfl
@[simp] theorem Block.setTable_din (m : Memory) (p : BitVec 9) (b : Block) : (b.setTable m p).din = b.din := rfl
@[simp] theorem Block.setTable_crcOut (m : Memory) (p : BitVec 9) (b : Block) : (b.setTable m p).crcOut = b.crcOut := rfl
@[simp] theorem Block.setTable_hamWord (m : Memory) (p : BitVec 9) (b : Block) : (b.setTable m p).hamWord = b.hamWord := rfl
@[simp] theorem Block.setTable_hamSynd (m : Memory) (p : BitVec 9) (b : Block) : (b.setTable m p).hamSynd = b.hamSynd := rfl
@[simp] theorem Block.setTable_hamOutc (m : Memory) (p : BitVec 9) (b : Block) : (b.setTable m p).hamOutc = b.hamOutc := rfl
@[simp] theorem Block.setTable_hamData (m : Memory) (p : BitVec 9) (b : Block) : (b.setTable m p).hamData = b.hamData := rfl
@[simp] theorem Block.setTable_vok (m : Memory) (p : BitVec 9) (b : Block) : (b.setTable m p).vok = b.vok := rfl
@[simp] theorem Block.setTable_lastErr (m : Memory) (p : BitVec 9) (b : Block) : (b.setTable m p).lastErr = b.lastErr := rfl
@[simp] theorem Block.setTable_errCmd (m : Memory) (p : BitVec 9) (b : Block) : (b.setTable m p).errCmd = b.errCmd := rfl
@[simp] theorem Block.setTable_errLen (m : Memory) (p : BitVec 9) (b : Block) : (b.setTable m p).errLen = b.errLen := rfl
@[simp] theorem Block.setTable_errTbl (m : Memory) (p : BitVec 9) (b : Block) : (b.setTable m p).errTbl = b.errTbl := rfl
@[simp] theorem Block.setTable_errRange (m : Memory) (p : BitVec 9) (b : Block) : (b.setTable m p).errRange = b.errRange := rfl
@[simp] theorem Block.setTable_warnPoly (m : Memory) (p : BitVec 9) (b : Block) : (b.setTable m p).warnPoly = b.warnPoly := rfl
@[simp] theorem Block.setTable_busy (m : Memory) (p : BitVec 9) (b : Block) : (b.setTable m p).busy = b.busy := rfl
@[simp] theorem Block.setTable_tbl (m : Memory) (p : BitVec 9) (b : Block) : (b.setTable m p).tbl = m := rfl
@[simp] theorem Block.setTable_tblPoly (m : Memory) (p : BitVec 9) (b : Block) : (b.setTable m p).tblPoly = p := rfl
@[simp] theorem Block.setTable_tblValid (m : Memory) (p : BitVec 9) (b : Block) : (b.setTable m p).tblValid = true := rfl

/-! ### Block.effectivePoly -/

@[simp] theorem Block.effectivePoly_tblEn (b : Block) : b.effectivePoly.tblEn = b.tblEn := rfl
@[simp] theorem Block.effectivePoly_poly (b : Block) : b.effectivePoly.poly = (if b.poly.toNat < 2 then Config.defaultPoly else b.poly) := rfl
@[simp] theorem Block.effectivePoly_din (b : Block) : b.effectivePoly.din = b.din := rfl
@[simp] theorem Block.effectivePoly_crcOut (b : Block) : b.effectivePoly.crcOut = b.crcOut := rfl
@[simp] theorem Block.effectivePoly_hamWord (b : Block) : b.effectivePoly.hamWord = b.hamWord := rfl
@[simp] theorem Block.effectivePoly_hamSynd (b : Block) : b.effectivePoly.hamSynd = b.hamSynd := rfl
@[simp] theorem Block.effectivePoly_hamOutc (b : Block) : b.effectivePoly.hamOutc = b.hamOutc := rfl
@[simp] theorem Block.effectivePoly_hamData (b : Block) : b.effectivePoly.hamData = b.hamData := rfl
@[simp] theorem Block.effectivePoly_vok (b : Block) : b.effectivePoly.vok = b.vok := rfl
@[simp] theorem Block.effectivePoly_lastErr (b : Block) : b.effectivePoly.lastErr = b.lastErr := rfl
@[simp] theorem Block.effectivePoly_errCmd (b : Block) : b.effectivePoly.errCmd = b.errCmd := rfl
@[simp] theorem Block.effectivePoly_errLen (b : Block) : b.effectivePoly.errLen = b.errLen := rfl
@[simp] theorem Block.effectivePoly_errTbl (b : Block) : b.effectivePoly.errTbl = b.errTbl := rfl
@[simp] theorem Block.effectivePoly_errRange (b : Block) : b.effectivePoly.errRange = b.errRange := rfl
@[simp] theorem Block.effectivePoly_warnPoly (b : Block) : b.effectivePoly.warnPoly = (b.warnPoly || decide (b.poly.toNat < 2)) := rfl
@[simp] theorem Block.effectivePoly_busy (b : Block) : b.effectivePoly.busy = b.busy := rfl
@[simp] theorem Block.effectivePoly_tbl (b : Block) : b.effectivePoly.tbl = b.tbl := rfl
@[simp] theorem Block.effectivePoly_tblPoly (b : Block) : b.effectivePoly.tblPoly = b.tblPoly := rfl
@[simp] theorem Block.effectivePoly_tblValid (b : Block) : b.effectivePoly.tblValid = b.tblValid := rfl

/-! ### State.setBlock -/

@[simp] theorem State.setBlock_block (b : Block) (s : State) : (s.setBlock b).block = b := rfl
@[simp] theorem State.setBlock_cmd (b : Block) (s : State) : (s.setBlock b).cmd = s.cmd := rfl
@[simp] theorem State.setBlock_held (b : Block) (s : State) : (s.setBlock b).held = s.held := rfl
@[simp] theorem State.setBlock_events (b : Block) (s : State) : (s.setBlock b).events = s.events := rfl
@[simp] theorem State.setBlock_answers (b : Block) (s : State) : (s.setBlock b).answers = s.answers := rfl

/-! ### State.setCmd -/

@[simp] theorem State.setCmd_block (c : Word) (s : State) : (s.setCmd c).block = s.block := rfl
@[simp] theorem State.setCmd_cmd (c : Word) (s : State) : (s.setCmd c).cmd = c := rfl
@[simp] theorem State.setCmd_held (c : Word) (s : State) : (s.setCmd c).held = s.held := rfl
@[simp] theorem State.setCmd_events (c : Word) (s : State) : (s.setCmd c).events = s.events := rfl
@[simp] theorem State.setCmd_answers (c : Word) (s : State) : (s.setCmd c).answers = s.answers := rfl

/-! ### State.setHeld -/

@[simp] theorem State.setHeld_block (l : List Access) (s : State) : (s.setHeld l).block = s.block := rfl
@[simp] theorem State.setHeld_cmd (l : List Access) (s : State) : (s.setHeld l).cmd = s.cmd := rfl
@[simp] theorem State.setHeld_held (l : List Access) (s : State) : (s.setHeld l).held = l := rfl
@[simp] theorem State.setHeld_events (l : List Access) (s : State) : (s.setHeld l).events = s.events := rfl
@[simp] theorem State.setHeld_answers (l : List Access) (s : State) : (s.setHeld l).answers = s.answers := rfl

/-! ### State.setEvents -/

@[simp] theorem State.setEvents_block (l : List Event) (s : State) : (s.setEvents l).block = s.block := rfl
@[simp] theorem State.setEvents_cmd (l : List Event) (s : State) : (s.setEvents l).cmd = s.cmd := rfl
@[simp] theorem State.setEvents_held (l : List Event) (s : State) : (s.setEvents l).held = s.held := rfl
@[simp] theorem State.setEvents_events (l : List Event) (s : State) : (s.setEvents l).events = l := rfl
@[simp] theorem State.setEvents_answers (l : List Event) (s : State) : (s.setEvents l).answers = s.answers := rfl

/-! ### State.reply -/

@[simp] theorem State.reply_block (a : Access) (r : Answer) (s : State) : (s.reply a r).block = s.block := rfl
@[simp] theorem State.reply_cmd (a : Access) (r : Answer) (s : State) : (s.reply a r).cmd = s.cmd := rfl
@[simp] theorem State.reply_held (a : Access) (r : Answer) (s : State) : (s.reply a r).held = s.held := rfl
@[simp] theorem State.reply_events (a : Access) (r : Answer) (s : State) : (s.reply a r).events = s.events := rfl
@[simp] theorem State.reply_answers (a : Access) (r : Answer) (s : State) : (s.reply a r).answers = (a, r) :: s.answers := rfl

end Sys2Proof.Machine
end

