-- ==== Sys2Proof/Laws/Bus.lean ====
section
/-! SUPPORT. Where an access goes, in the words of 20_memory.md R60, R61 and R66, and what performing one does. -/

namespace Sys2Proof.Machine

open Sys2Proof.Safety

theorem target_outside {a : Access} (h : ¬inWindow a) : target a = .outside := by
  rw [target, if_neg]
  simp only [inWindow, Config.windowSize] at h ⊢
  omega

theorem target_ne_outside_iff (a : Access) : target a ≠ .outside ↔ inWindow a := by
  constructor
  · intro h
    by_contra hn
    exact h (target_outside hn)
  · intro h
    have h' : Config.base ≤ a.addr ∧ a.addr - Config.base < Config.windowSize := by
      simp only [inWindow, Config.windowSize] at h ⊢
      omega
    rw [target, if_pos h']
    split <;> simp

/-- BASE is a multiple of 4. -/
theorem base_mod_four : Config.base % 4 = 0 := by
  rw [Config.base, Config.windowSize]
  omega

/-- An access in the window of another size, or at an address that is no multiple of 4 (R61). -/
theorem target_bad {a : Access} (h : inWindow a) (hb : a.bytes ≠ 4 ∨ a.addr % 4 ≠ 0) : target a = .bad := by
  have hm := base_mod_four
  have h' : Config.base ≤ a.addr ∧ a.addr - Config.base < Config.windowSize := by
    simp only [inWindow, Config.windowSize] at h ⊢
    omega
  rw [target, if_pos h', if_neg]
  omega

/-- An accepted access reaches the register at its offset (R61). -/
theorem target_accepted {off : Nat} {a : Access} (h : acceptedAt off a) : target a = .reg (regAt off) := by
  obtain ⟨ha, hb, h4, h40⟩ := h
  have e : a.addr - Config.base = off := by omega
  have h' : Config.base ≤ a.addr ∧ a.addr - Config.base < Config.windowSize := by
    simp only [Config.windowSize]
    omega
  rw [target, if_pos h', e, if_pos ⟨hb, h4⟩]

theorem acceptedAt_inWindow {off : Nat} {a : Access} (h : acceptedAt off a) : inWindow a := by
  obtain ⟨ha, -, -, h40⟩ := h
  simp only [inWindow]
  omega

/-- Every access that reaches a register is an accepted one. -/
theorem accepted_of_target {a : Access} {r : Reg} (h : target a = .reg r) :
    acceptedAt (a.addr - Config.base) a ∧ regAt (a.addr - Config.base) = r := by
  rw [target] at h
  split at h
  · rename_i hw
    split at h
    · rename_i hb
      refine ⟨⟨by omega, hb.1, hb.2, hw.2⟩, ?_⟩
      injection h
    · cases h
  · cases h

/-- The offset of the register at an offset is that offset (R38). -/
theorem regAt_offset {off : Nat} (h4 : off % 4 = 0) (h40 : off < 0x40) : (regAt off).offset = off := by
  have key : ∀ k : Fin 16, (regAt (4 * k.val)).offset = 4 * k.val := by decide
  have := key ⟨off / 4, by omega⟩
  rwa [show 4 * (off / 4) = off by omega] at this

theorem offset_lt (r : Reg) : r.offset < 0x40 := by
  cases r with
  | reserved k => simp only [Reg.offset]; omega
  | _ => decide

theorem offset_mod (r : Reg) : r.offset % 4 = 0 := by
  cases r with
  | reserved k => simp only [Reg.offset]; omega
  | _ => decide

theorem regAt_of_offset (r : Reg) : regAt r.offset = r := by
  cases r with
  | reserved k => revert k; decide
  | _ => rfl

/-- The one access a busy block answers at once, in the words of R66. -/
theorem isStatusRead_iff (a : Access) : isStatusRead a = true ↔ statusRead a := by
  simp only [isStatusRead, decide_eq_true_eq, statusRead]
  constructor
  · rintro ⟨ht, ho⟩
    have h := accepted_of_target ht
    have e : a.addr - Config.base = 0x08 := by
      rw [← regAt_offset h.1.2.2.1 h.1.2.2.2, h.2]; rfl
    exact ⟨e ▸ h.1, ho⟩
  · rintro ⟨ha, ho⟩
    exact ⟨target_accepted ha, ho⟩

/-- What a busy block holds, in the words of R66. -/
theorem isHeld_iff (a : Access) : isHeld a = true ↔ inWindow a ∧ ¬statusRead a := by
  rw [isHeld, Bool.and_eq_true, decide_eq_true_eq, target_ne_outside_iff, Bool.not_eq_true', ← isStatusRead_iff,
    Bool.not_eq_true]

/-- Performing an access answers it, once, and leaves the held accesses and what is still to come. -/
theorem performAccess_frame (a : Access) (s : State) :
    ∃ r, (performAccess a s).answers = (a, r) :: s.answers ∧ (performAccess a s).held = s.held ∧
      (performAccess a s).events = s.events := by
  unfold performAccess answerOutside performReg
  split
  · exact ⟨_, rfl, rfl, rfl⟩
  · exact ⟨_, rfl, rfl, rfl⟩
  · split <;> exact ⟨_, rfl, rfl, rfl⟩

/-- Performing an accepted access reads or writes the register at its offset. -/
theorem performAccess_accepted {off : Nat} {a : Access} (h : acceptedAt off a) (s : State) :
    performAccess a s = performReg a (regAt off) s := by
  rw [performAccess, target_accepted h]

theorem performReg_read {a : Access} (h : a.op = .read) (r : Reg) (s : State) :
    performReg a r s = s.reply a (.data (readReg r s.block)) := by
  rw [performReg, h]

theorem performReg_write {a : Access} {v : Word} (h : a.op = .write v) (r : Reg) (s : State) :
    performReg a r s = ((s.setBlock (writeReg r v s.block)).setCmd (if r = .cmd then v else s.cmd)).reply a .done := by
  rw [performReg, h]

/-- What performing an access can do to the block: nothing, or the write of an accepted access. -/
theorem performAccess_cases (a : Access) (s : State) :
    ((performAccess a s).block = s.block ∧ (performAccess a s).cmd = s.cmd) ∨
    ∃ off v, acceptedAt off a ∧ a.op = .write v ∧ (performAccess a s).block = writeReg (regAt off) v s.block ∧
      (performAccess a s).cmd = (if regAt off = .cmd then v else s.cmd) := by
  cases ht : target a with
  | outside => left; simp [performAccess, ht, answerOutside]
  | bad => left; simp [performAccess, ht]
  | reg r =>
    have h := accepted_of_target ht
    cases ho : a.op with
    | read => left; simp [performAccess, ht, performReg_read ho]
    | write v =>
      right
      exact ⟨_, v, h.1, rfl, by simp [performAccess, ht, performReg_write ho, h.2],
        by simp [performAccess, ht, performReg_write ho, h.2]⟩

/-- What is kept of the held accesses at a hardware reset stands in their order (70_reset_and_hazards.md R233). -/
theorem keptHeld_sublist (keep : List Bool) (l : List Access) : (keptHeld keep l).Sublist l := by
  induction l generalizing keep with
  | nil =>
    cases keep with
    | nil => simp [keptHeld]
    | cons k ks => cases k <;> simp [keptHeld]
  | cons a as ih =>
    cases keep with
    | nil => simp [keptHeld]
    | cons k ks =>
      cases k
      · exact List.Sublist.cons _ (ih ks)
      · exact List.Sublist.cons_cons _ (ih ks)

/-- Any of the held accesses can be the ones kept (U13). -/
theorem keptHeld_all {k l : List Access} (h : k.Sublist l) : ∃ keep, keptHeld keep l = k := by
  induction h with
  | slnil => exact ⟨[], rfl⟩
  | cons a _ ih =>
    obtain ⟨ks, h⟩ := ih
    exact ⟨false :: ks, h⟩
  | cons_cons a _ ih =>
    obtain ⟨ks, h⟩ := ih
    exact ⟨true :: ks, by simp [keptHeld, h]⟩

end Sys2Proof.Machine
end

