-- ==== Sys2Proof/Laws/Memory.lean ====
section
/-! SUPPORT. The laws of the table RAM: a read after a write, the canonical form that every operation keeps, equality of
memories that read alike, and what a table build leaves. -/

namespace Sys2Proof.Machine

@[simp] theorem Memory.read_nil (i : Byte) : Memory.read [] i = Memory.blank := rfl

theorem Memory.read_cons (k : Nat) (v : Byte) (m : Memory) (i : Byte) :
    Memory.read ((k, v) :: m) i = if k = i.toNat then v else Memory.read m i := rfl

theorem Memory.wfFrom_cons {lo k : Nat} {v : Byte} {m : Memory} :
    Memory.wfFrom lo ((k, v) :: m) = true ↔
      lo ≤ k ∧ k < Config.tableEntries ∧ v ≠ Memory.blank ∧ Memory.wfFrom (k + 1) m = true := by
  simp [Memory.wfFrom, and_assoc]

@[simp] theorem Memory.wf_nil : Memory.wf [] = true := rfl

/-- A lower bound on the indexes may be lowered. -/
theorem Memory.wfFrom_mono {lo lo' : Nat} {m : Memory} (h : Memory.wfFrom lo m = true) (hl : lo' ≤ lo) :
    Memory.wfFrom lo' m = true := by
  cases m with
  | nil => rfl
  | cons c m =>
    obtain ⟨k, v⟩ := c
    rw [Memory.wfFrom_cons] at h ⊢
    exact ⟨hl.trans h.1, h.2⟩

/-- Nothing is listed below the bound. -/
theorem Memory.read_below {lo : Nat} {m : Memory} (h : Memory.wfFrom lo m = true) {i : Byte} (hi : i.toNat < lo) :
    Memory.read m i = Memory.blank := by
  induction m generalizing lo with
  | nil => rfl
  | cons c m ih =>
    obtain ⟨k, v⟩ := c
    rw [Memory.wfFrom_cons] at h
    rw [Memory.read_cons, if_neg (by omega)]
    exact ih h.2.2.2 (by omega)

theorem Memory.wfFrom_write {lo : Nat} {m : Memory} (h : Memory.wfFrom lo m = true) {i : Byte} (hi : lo ≤ i.toNat)
    (v : Byte) : Memory.wfFrom lo (Memory.write m i v) = true := by
  have hb : i.toNat < Config.tableEntries := i.isLt
  induction m generalizing lo with
  | nil =>
    by_cases hv : v = Memory.blank
    · simp [Memory.write, hv, Memory.wfFrom]
    · simp [Memory.write, hv, Memory.wfFrom, hi, hb]
  | cons c m ih =>
    obtain ⟨k, x⟩ := c
    have h' := Memory.wfFrom_cons.1 h
    unfold Memory.write
    split
    · split
      · exact h
      · rename_i hv
        exact Memory.wfFrom_cons.2 ⟨hi, hb, hv, Memory.wfFrom_cons.2 ⟨by omega, h'.2⟩⟩
    · split
      · rename_i hk
        split
        · exact Memory.wfFrom_mono h'.2.2.2 (by omega)
        · rename_i hv
          exact Memory.wfFrom_cons.2 ⟨hi, hb, hv, hk ▸ h'.2.2.2⟩
      · exact Memory.wfFrom_cons.2 ⟨h'.1, h'.2.1, h'.2.2.1, ih h'.2.2.2 (by omega)⟩

/-- A write keeps the canonical form. -/
theorem Memory.wf_write {m : Memory} (h : Memory.wf m = true) (i v : Byte) : Memory.wf (Memory.write m i v) = true :=
  Memory.wfFrom_write h (Nat.zero_le _) v

theorem Memory.read_write_of_wfFrom {lo : Nat} {m : Memory} (h : Memory.wfFrom lo m = true) (i j v : Byte) :
    Memory.read (Memory.write m i v) j = if j = i then v else Memory.read m j := by
  have hij : (i.toNat = j.toNat) ↔ j = i := by rw [eq_comm (a := j), BitVec.toNat_inj]
  induction m generalizing lo with
  | nil =>
    unfold Memory.write
    split <;> rename_i hv
    · split <;> simp_all
    · rw [Memory.read_cons]; simp [hij]
  | cons c m ih =>
    obtain ⟨k, x⟩ := c
    have h' := Memory.wfFrom_cons.1 h
    unfold Memory.write
    split
    · split
      · rename_i hlt hv
        split
        · rename_i hji
          subst hji
          rw [hv]
          exact Memory.read_below (Memory.wfFrom_cons.2 ⟨le_refl k, h'.2⟩) hlt
        · rfl
      · rw [Memory.read_cons]; simp [hij]
    · split
      · rename_i hk
        split
        · rename_i hv
          split
          · rename_i hji
            subst hji
            rw [hv]
            exact Memory.read_below h'.2.2.2 (by omega)
          · rename_i hji
            rw [Memory.read_cons, if_neg (fun e => hji (hij.1 (hk.trans e)))]
        · rw [Memory.read_cons, Memory.read_cons, ← hk]
          by_cases e : j = i
          · simp [e]
          · simp [e, hij]
      · rename_i hne
        rw [Memory.read_cons, Memory.read_cons, ih h'.2.2.2]
        by_cases e : j = i
        · subst e
          rw [if_neg (fun e => hne e.symm)]
          simp
        · simp [e]

/-- A read after a write: the written entry reads the value, every other entry reads as before. -/
theorem Memory.read_write {m : Memory} (h : Memory.wf m = true) (i j v : Byte) :
    Memory.read (Memory.write m i v) j = if j = i then v else Memory.read m j :=
  Memory.read_write_of_wfFrom h i j v

theorem toNat_index {k : Nat} (h : k < Config.tableEntries) : (BitVec.ofNat 8 k).toNat = k :=
  Nat.mod_eq_of_lt h

theorem Memory.ext_of_wfFrom {lo lo' : Nat} {m m' : Memory} (h : Memory.wfFrom lo m = true)
    (h' : Memory.wfFrom lo' m' = true) (hr : ∀ i, Memory.read m i = Memory.read m' i) : m = m' := by
  induction m generalizing lo lo' m' with
  | nil =>
    cases m' with
    | nil => rfl
    | cons c m' =>
      obtain ⟨k, v⟩ := c
      have h1 := Memory.wfFrom_cons.1 h'
      have h2 := hr (BitVec.ofNat 8 k)
      rw [Memory.read_cons, if_pos (toNat_index h1.2.1).symm] at h2
      exact absurd h2.symm h1.2.2.1
  | cons c m ih =>
    obtain ⟨k, v⟩ := c
    have h1 := Memory.wfFrom_cons.1 h
    have ek := toNat_index h1.2.1
    cases m' with
    | nil =>
      have h2 := hr (BitVec.ofNat 8 k)
      rw [Memory.read_cons, if_pos ek.symm] at h2
      exact absurd h2 h1.2.2.1
    | cons c' m' =>
      obtain ⟨k', v'⟩ := c'
      have h1' := Memory.wfFrom_cons.1 h'
      have ek' := toNat_index h1'.2.1
      have hk : k = k' := by
        rcases Nat.lt_trichotomy k k' with hlt | heq | hgt
        · have h2 := hr (BitVec.ofNat 8 k)
          rw [Memory.read_cons, if_pos ek.symm,
            Memory.read_below (Memory.wfFrom_cons.2 ⟨le_refl k', h1'.2⟩) (by omega)] at h2
          exact absurd h2 h1.2.2.1
        · exact heq
        · have h2 := hr (BitVec.ofNat 8 k')
          rw [Memory.read_cons (k := k'), if_pos ek'.symm,
            Memory.read_below (Memory.wfFrom_cons.2 ⟨le_refl k, h1.2⟩) (by omega)] at h2
          exact absurd h2.symm h1'.2.2.1
      subst hk
      have hv : v = v' := by
        have h2 := hr (BitVec.ofNat 8 k)
        rwa [Memory.read_cons, Memory.read_cons, if_pos ek.symm, if_pos ek.symm] at h2
      subst hv
      congr 1
      refine ih h1.2.2.2 h1'.2.2.2 fun i => ?_
      have h2 := hr i
      rw [Memory.read_cons, Memory.read_cons] at h2
      by_cases e : k = i.toNat
      · rw [Memory.read_below h1.2.2.2 (by omega), Memory.read_below h1'.2.2.2 (by omega)]
      · simpa [e] using h2

/-- Memories in canonical form that read alike are equal. -/
theorem Memory.ext_of_wf {m m' : Memory} (h : Memory.wf m = true) (h' : Memory.wf m' = true)
    (hr : ∀ i, Memory.read m i = Memory.read m' i) : m = m' :=
  Memory.ext_of_wfFrom h h' hr

theorem buildFirst_succ (p : Nat) (m : Memory) (n : Nat) :
    buildFirst p m (n + 1) = Memory.write (buildFirst p m n) (BitVec.ofNat 8 n) (tableEntry p n) := rfl

theorem buildFirst_wf {m : Memory} (h : Memory.wf m = true) (p n : Nat) : Memory.wf (buildFirst p m n) = true := by
  induction n with
  | zero => exact h
  | succ n ih => rw [buildFirst_succ]; exact Memory.wf_write ih _ _

theorem buildFirst_read {m : Memory} (h : Memory.wf m = true) (p n : Nat) (hn : n ≤ 256) (i : Byte) :
    Memory.read (buildFirst p m n) i = if i.toNat < n then tableEntry p i.toNat else Memory.read m i := by
  induction n with
  | zero => simp [buildFirst]
  | succ n ih =>
    have en : (BitVec.ofNat 8 n).toNat = n := by simp; omega
    rw [buildFirst_succ, Memory.read_write (buildFirst_wf h p n), ih (by omega)]
    by_cases e : i = BitVec.ofNat 8 n
    · subst e; simp [en]
    · have hne : i.toNat ≠ n := fun h => e (BitVec.eq_of_toNat_eq (by rw [en]; exact h))
      rw [if_neg e]
      by_cases hlt : i.toNat < n
      · rw [if_pos hlt, if_pos (by omega)]
      · rw [if_neg hlt, if_neg (by omega)]

/-- A table build keeps the canonical form. -/
theorem buildCells_wf {m : Memory} (h : Memory.wf m = true) (p : Nat) : Memory.wf (buildCells p m) = true :=
  buildFirst_wf h p 256

/-- After a table build every entry is the one of its index. -/
theorem buildCells_read {m : Memory} (h : Memory.wf m = true) (p : Nat) (i : Byte) :
    Memory.read (buildCells p m) i = tableEntry p i.toNat := by
  have := buildFirst_read h p 256 (le_refl _) i
  rwa [if_pos i.isLt] at this

/-- A table build leaves nothing of what the table held before. -/
theorem buildCells_eq {m m' : Memory} (h : Memory.wf m = true) (h' : Memory.wf m' = true) (p : Nat) :
    buildCells p m = buildCells p m' :=
  Memory.ext_of_wf (buildCells_wf h p) (buildCells_wf h' p) fun i => by
    rw [buildCells_read h, buildCells_read h']

end Sys2Proof.Machine
end

