-- ==== Sys2Proof/Laws/Commands.lean ====
section
/-! SUPPORT. What a command can do, said once: `exec` answers a next state that differs in the block only
(`exec_eq_next`); the block is the old one with a rejection, or the performed operation with LAST_ERR cleared
(`commandBlock_cases`); and what every operation leaves. -/

namespace Sys2Proof.Machine

open Sys2Proof.Safety

/-! ## The polynomial -/

theorem poly_lt_two_iff (b : Block) : b.poly.toNat < 2 ↔ b.poly = 0#33 ∨ b.poly = 1#33 := by
  constructor
  · intro h
    have : b.poly.toNat = 0 ∨ b.poly.toNat = 1 := by omega
    rcases this with h0 | h1
    · exact .inl (BitVec.eq_of_toNat_eq h0)
    · exact .inr (BitVec.eq_of_toNat_eq h1)
  · rintro (h | h) <;> simp [h]

/-- The polynomial a CRC command uses is the `poly` that `effective_poly()` leaves. -/
theorem effectivePoly_poly_eq (b : Block) : b.effectivePoly.poly = usedPoly b := by
  simp [usedPoly, ← poly_lt_two_iff, Config.defaultPoly]

theorem effectivePoly_warnPoly_eq (b : Block) : b.effectivePoly.warnPoly = warnAfter b := by
  simp [warnAfter, ← poly_lt_two_iff]

theorem effectivePoly_deg_eq (b : Block) : b.effectivePoly.deg = degree (usedPoly b).toNat := by
  rw [Block.deg, effectivePoly_poly_eq]

/-- `effective_poly()` writes `poly` and `warn_poly` only. -/
theorem effectivePoly_eq (b : Block) : b.effectivePoly = { b with poly := usedPoly b, warnPoly := warnAfter b } := by
  rw [← effectivePoly_poly_eq, ← effectivePoly_warnPoly_eq]; rfl

/-- A valid polynomial is used as it is. -/
theorem effectivePoly_of_valid {b : Block} (h : 2 ≤ b.poly.toNat) : b.effectivePoly = b := by
  have : ¬b.poly.toNat < 2 := by omega
  unfold Block.effectivePoly
  simp [this]

/-- The polynomial in use is valid (41_crc.md R120). -/
theorem two_le_effectivePoly (b : Block) : 2 ≤ b.effectivePoly.poly.toNat := by
  rw [Block.effectivePoly_poly]
  split
  · decide
  · omega

/-! ## Checks -/

theorem checkLen_pass {n : Nat} (h : 1 ≤ n ∧ n ≤ 32) (b : Block) (k : Block → Block) : checkLen n b k = k b := if_pos h

theorem checkLen_fail {n : Nat} (h : ¬(1 ≤ n ∧ n ≤ 32)) (b : Block) (k : Block → Block) :
    checkLen n b k = b.raise .len := if_neg h

theorem checkTable_pass {b : Block} (h : b.deg = 8) (k : Block → Block) : checkTable b k = k b := if_pos h

theorem checkTable_fail {b : Block} (h : b.deg ≠ 8) (k : Block → Block) : checkTable b k = b.raise .tbl := if_neg h

theorem checkRange_pass {limit : Nat} {b : Block} (h : b.din.toNat ≤ limit) (k : Block → Block) :
    checkRange limit b k = k b := if_pos h

theorem checkRange_fail {limit : Nat} {b : Block} (h : limit < b.din.toNat) (k : Block → Block) :
    checkRange limit b k = b.raise .range := if_neg (by omega)

/-! ## The table -/

theorem buildTable_eq (p : BitVec 33) (b : Block) :
    buildTable p b = { b with tbl := buildCells p.toNat b.tbl, tblPoly := p.setWidth 9, tblValid := true } := rfl

@[simp] theorem buildTable_tbl (p : BitVec 33) (b : Block) : (buildTable p b).tbl = buildCells p.toNat b.tbl := by
  rw [buildTable_eq]

theorem ensureTable_hit {p : BitVec 33} {b : Block} (h : b.tblValid = true ∧ b.tblPoly.setWidth 33 = p) :
    ensureTable p b = b := by rw [ensureTable, if_pos h]

theorem ensureTable_miss {p : BitVec 33} {b : Block} (h : ¬(b.tblValid = true ∧ b.tblPoly.setWidth 33 = p)) :
    ensureTable p b = buildTable p b := by rw [ensureTable, if_neg h]

/-- `ensure_table` writes the table, its tag and its validity only. -/
theorem ensureTable_eq (p : BitVec 33) (b : Block) :
    ensureTable p b = { b with
      tbl := (ensureTable p b).tbl, tblPoly := (ensureTable p b).tblPoly, tblValid := (ensureTable p b).tblValid } := by
  by_cases h : b.tblValid = true ∧ b.tblPoly.setWidth 33 = p
  · rw [ensureTable_hit h]
  · rw [ensureTable_miss h, buildTable_eq]

theorem ensureTable_wf {b : Block} (h : Memory.wf b.tbl = true) (p : BitVec 33) :
    Memory.wf (ensureTable p b).tbl = true := by
  by_cases hh : b.tblValid = true ∧ b.tblPoly.setWidth 33 = p
  · rwa [ensureTable_hit hh]
  · rw [ensureTable_miss hh, buildTable_tbl]; exact buildCells_wf h _

theorem ensureTable_tblValid (p : BitVec 33) (b : Block) : (ensureTable p b).tblValid = true := by
  by_cases h : b.tblValid = true ∧ b.tblPoly.setWidth 33 = p
  · rw [ensureTable_hit h]; exact h.1
  · rw [ensureTable_miss h, buildTable_eq]

/-! ## Commands -/

/-- The operation of a command, without its checks: `perform` of R101. -/
def performBlock (i : Instr) (b : Block) : Block :=
  match i with
  | .nop _ => b
  | .crcCompute n => performCrcCompute n b
  | .crcVerify n => performCrcVerify n b
  | .crcTblLoad _ => ensureTable b.poly b
  | .crcTblRead _ => performCrcTblRead b
  | .hamEncode _ => performHamEncode b
  | .hamDecode _ => performHamDecode b

/-- A command on the block, with its checks. -/
def commandBlock (i : Instr) (b : Block) : Block :=
  match i with
  | .nop _ => b.accept
  | .crcCompute n => crcComputeBlock n b
  | .crcVerify n => crcVerifyBlock n b
  | .crcTblLoad _ => crcTblLoadBlock b
  | .crcTblRead _ => crcTblReadBlock b
  | .hamEncode _ => hamEncodeBlock b
  | .hamDecode _ => hamDecodeBlock b

/-- Every command answers a next state, in which at most the block differs. -/
theorem exec_eq_next (i : Instr) (s : State) : exec i s = .next { s with block := commandBlock i s.block } := by
  cases i <;> rfl

/-- The commands that obtain the polynomial (R84, R101 step 3). -/
def usesPoly (i : Instr) : Bool := decide (i.op.toNat ∈ [1, 2, 3, 4])

/-- The block a command performs its operation on, or is rejected on after step 3. -/
def afterPoly (i : Instr) (b : Block) : Block := if usesPoly i then b.effectivePoly else b

/-- What a command can do: a rejection by ERR_LEN before the polynomial is obtained; a rejection by ERR_TBL or ERR_RANGE
after; or the operation, and LAST_ERR cleared. -/
theorem commandBlock_cases (i : Instr) (b : Block) :
    (commandBlock i b = b.raise .len ∧ i.op.toNat ∈ [1, 2] ∧ ¬(1 ≤ i.dlen ∧ i.dlen ≤ 32)) ∨
    (∃ e, (e = .tbl ∨ e = .range) ∧ commandBlock i b = (afterPoly i b).raise e ∧
      (i.op.toNat ∈ [1, 2] → 1 ≤ i.dlen ∧ i.dlen ≤ 32)) ∨
    (commandBlock i b = (performBlock i (afterPoly i b)).accept ∧
      (i.op.toNat ∈ [1, 2] → 1 ≤ i.dlen ∧ i.dlen ≤ 32)) := by
  cases i with
  | nop n => exact .inr (.inr ⟨rfl, by simp [Instr.op]⟩)
  | crcCompute n =>
    simp only [commandBlock, crcComputeBlock]
    by_cases hn : 1 ≤ n ∧ n ≤ 32
    · rw [checkLen_pass hn]
      by_cases hr : b.effectivePoly.din.toNat ≤ computeLimit n
      · exact .inr (.inr ⟨by rw [checkRange_pass hr]; rfl, fun _ => hn⟩)
      · exact .inr (.inl ⟨.range, .inr rfl, by rw [checkRange_fail (by omega)]; rfl, fun _ => hn⟩)
    · exact .inl ⟨checkLen_fail hn _ _, by simp [Instr.op], hn⟩
  | crcVerify n =>
    simp only [commandBlock, crcVerifyBlock]
    by_cases hn : 1 ≤ n ∧ n ≤ 32
    · rw [checkLen_pass hn]
      by_cases hr : b.effectivePoly.din.toNat ≤ verifyLimit n b.effectivePoly.deg
      · exact .inr (.inr ⟨by rw [checkRange_pass hr]; rfl, fun _ => hn⟩)
      · exact .inr (.inl ⟨.range, .inr rfl, by rw [checkRange_fail (by omega)]; rfl, fun _ => hn⟩)
    · exact .inl ⟨checkLen_fail hn _ _, by simp [Instr.op], hn⟩
  | crcTblLoad n =>
    simp only [commandBlock, crcTblLoadBlock]
    by_cases hd : b.effectivePoly.deg = 8
    · exact .inr (.inr ⟨by rw [checkTable_pass hd]; rfl, by simp [Instr.op]⟩)
    · exact .inr (.inl ⟨.tbl, .inl rfl, by rw [checkTable_fail hd]; rfl, by simp [Instr.op]⟩)
  | crcTblRead n =>
    simp only [commandBlock, crcTblReadBlock]
    by_cases hd : b.effectivePoly.deg = 8
    · rw [checkTable_pass hd]
      by_cases hr : b.effectivePoly.din.toNat ≤ byteLimit
      · exact .inr (.inr ⟨by rw [checkRange_pass hr]; rfl, by simp [Instr.op]⟩)
      · exact .inr (.inl ⟨.range, .inr rfl, by rw [checkRange_fail (by omega)]; rfl, by simp [Instr.op]⟩)
    · exact .inr (.inl ⟨.tbl, .inl rfl, by rw [checkTable_fail hd]; rfl, by simp [Instr.op]⟩)
  | hamEncode n =>
    simp only [commandBlock, hamEncodeBlock]
    by_cases hr : b.din.toNat ≤ byteLimit
    · exact .inr (.inr ⟨by rw [checkRange_pass hr]; rfl, by simp [Instr.op]⟩)
    · exact .inr (.inl ⟨.range, .inr rfl, by rw [checkRange_fail (by omega)]; rfl, by simp [Instr.op]⟩)
  | hamDecode n =>
    simp only [commandBlock, hamDecodeBlock]
    by_cases hr : b.din.toNat ≤ codewordLimit
    · exact .inr (.inr ⟨by rw [checkRange_pass hr]; rfl, by simp [Instr.op]⟩)
    · exact .inr (.inl ⟨.range, .inr rfl, by rw [checkRange_fail (by omega)]; rfl, by simp [Instr.op]⟩)

/-- CRC_COMPUTE writes CRC_OUT, and on the table path the table. -/
theorem performCrcCompute_eq (n : Nat) (b : Block) :
    performCrcCompute n b = { b with
      crcOut := (performCrcCompute n b).crcOut, tbl := (performCrcCompute n b).tbl,
      tblPoly := (performCrcCompute n b).tblPoly, tblValid := (performCrcCompute n b).tblValid } := by
  unfold performCrcCompute
  split
  · simp only
    rw [ensureTable_eq b.poly b]
    rfl
  · rfl

/-- No operation writes the operands, the error flags, LAST_ERR, `busy` or `tbl_en`. -/
theorem performBlock_frame (i : Instr) (b : Block) :
    (performBlock i b).tblEn = b.tblEn ∧ (performBlock i b).poly = b.poly ∧ (performBlock i b).din = b.din ∧
    (performBlock i b).lastErr = b.lastErr ∧ (performBlock i b).errCmd = b.errCmd ∧
    (performBlock i b).errLen = b.errLen ∧ (performBlock i b).errTbl = b.errTbl ∧
    (performBlock i b).errRange = b.errRange ∧ (performBlock i b).warnPoly = b.warnPoly ∧
    (performBlock i b).busy = b.busy := by
  cases i with
  | nop n => exact ⟨rfl, rfl, rfl, rfl, rfl, rfl, rfl, rfl, rfl, rfl⟩
  | crcCompute n =>
    simp only [performBlock]
    rw [performCrcCompute_eq]
    exact ⟨rfl, rfl, rfl, rfl, rfl, rfl, rfl, rfl, rfl, rfl⟩
  | crcVerify n => exact ⟨rfl, rfl, rfl, rfl, rfl, rfl, rfl, rfl, rfl, rfl⟩
  | crcTblLoad n =>
    simp only [performBlock]
    rw [ensureTable_eq]
    exact ⟨rfl, rfl, rfl, rfl, rfl, rfl, rfl, rfl, rfl, rfl⟩
  | crcTblRead n =>
    simp only [performBlock, performCrcTblRead]
    rw [ensureTable_eq]
    exact ⟨rfl, rfl, rfl, rfl, rfl, rfl, rfl, rfl, rfl, rfl⟩
  | hamEncode n => exact ⟨rfl, rfl, rfl, rfl, rfl, rfl, rfl, rfl, rfl, rfl⟩
  | hamDecode n => exact ⟨rfl, rfl, rfl, rfl, rfl, rfl, rfl, rfl, rfl, rfl⟩

end Sys2Proof.Machine
end

