-- ==== Sys2Proof/Laws/Encoding.lean ====
section
/-! SUPPORT. The fields of a command word (30_encoding.md R81): a word is its four fields, the reserved fields are 0 just when
the mask of R87 says so, and the opcode map gives a command back with its opcode and its data length. -/

namespace Sys2Proof

/-- A command word is its four fields (R81). -/
theorem word_eq_fields (c : Word) : c = rsv1Field c ++ dlenField c ++ rsv0Field c ++ opField c := by
  apply BitVec.eq_of_getLsbD_eq
  intro j hj
  simp only [rsv1Field, dlenField, rsv0Field, opField, BitVec.getLsbD_append, BitVec.getLsbD_extractLsb']
  have : j < 4 ∨ (4 ≤ j ∧ j < 8) ∨ (8 ≤ j ∧ j < 14) ∨ 14 ≤ j := by omega
  rcases this with h | h | h | h
  · simp [h]
  · simp [show ¬j < 4 by omega, show j - 4 < 4 by omega, show 4 + (j - 4) = j by omega]
  · simp [show ¬j < 4 by omega, show ¬j - 4 < 4 by omega, show j - 4 - 4 < 6 by omega, show 8 + (j - 4 - 4) = j by omega]
  · simp [show ¬j < 4 by omega, show ¬j - 4 < 4 by omega, show ¬j - 4 - 4 < 6 by omega,
      show 14 + (j - 4 - 4 - 6) = j by omega, show j - 4 - 4 - 6 < 18 by omega]

/-- The opcode map gives a command with that opcode and that data length (R82). -/
theorem instrOfOp_spec {o : BitVec 4} {n : Nat} {i : Instr} (h : instrOfOp o.toNat n = some i) : i.op = o ∧ i.dlen = n := by
  have key : ∀ o : Fin 16, instrOfOp o.val n = some i → i.op = BitVec.ofNat 4 o.val ∧ i.dlen = n := by
    intro o
    fin_cases o <;> simp [instrOfOp] <;> rintro rfl <;> simp [Instr.op, Instr.dlen]
  simpa using key o.toFin h

/-- Every opcode but the reserved ones has its command (R82, R85). -/
theorem instrOfOp_isSome_iff (o : BitVec 4) (n : Nat) :
    (∃ i, instrOfOp o.toNat n = some i) ↔ o.toNat ∈ [0x0, 0x1, 0x2, 0x3, 0x4, 0x8, 0x9] := by
  have key : ∀ o : Fin 16, (∃ i, instrOfOp o.val n = some i) ↔ o.val ∈ [0x0, 0x1, 0x2, 0x3, 0x4, 0x8, 0x9] := by
    intro o
    fin_cases o <;> simp [instrOfOp]
  exact key o.toFin

/-- The reserved bits, as the mask of R87 and as the two fields of R81. -/
theorem reservedBits_iff (c : Word) : c &&& 0xFFFFC0F0#32 = 0#32 ↔ rsv0Field c = 0#4 ∧ rsv1Field c = 0#18 := by
  constructor
  · intro h
    have hb : ∀ j, (c &&& 0xFFFFC0F0#32).getLsbD j = false := by simp [h]
    constructor
    · apply BitVec.eq_of_getLsbD_eq
      intro j hj
      have := hb (4 + j)
      simp only [rsv0Field, BitVec.getLsbD_extractLsb', BitVec.getLsbD_and] at *
      interval_cases j <;> simp_all
    · apply BitVec.eq_of_getLsbD_eq
      intro j hj
      have := hb (14 + j)
      simp only [rsv1Field, BitVec.getLsbD_extractLsb', BitVec.getLsbD_and] at *
      interval_cases j <;> simp_all
  · rintro ⟨h0, h1⟩
    have g0 : ∀ j, (rsv0Field c).getLsbD j = false := by simp [h0]
    have g1 : ∀ j, (rsv1Field c).getLsbD j = false := by simp [h1]
    apply BitVec.eq_of_getLsbD_eq
    intro j hj
    have a0 := g0 (j - 4)
    have a1 := g1 (j - 14)
    simp only [rsv0Field, rsv1Field, BitVec.getLsbD_extractLsb', BitVec.getLsbD_and] at *
    interval_cases j <;> simp_all

/-- OP as a mask (R87). -/
theorem opBits_eq (c : Word) : c &&& 0xF#32 = (opField c).setWidth 32 := by
  apply BitVec.eq_of_getLsbD_eq
  intro j hj
  simp only [opField, BitVec.getLsbD_extractLsb', BitVec.getLsbD_and, BitVec.getLsbD_setWidth]
  interval_cases j <;> simp

theorem opBits_toNat (c : Word) : (c &&& 0xF#32).toNat = (opField c).toNat := by
  rw [opBits_eq, BitVec.toNat_setWidth, Nat.mod_eq_of_lt ((opField c).isLt.trans (by norm_num))]

/-- DLEN as a shift and a mask (R83). -/
theorem dlenBits_toNat (c : Word) : ((c >>> 8) &&& 0x3F#32).toNat = (dlenField c).toNat := by
  have h : (c >>> 8) &&& 0x3F#32 = (dlenField c).setWidth 32 := by
    apply BitVec.eq_of_getLsbD_eq
    intro j hj
    simp only [dlenField, BitVec.getLsbD_extractLsb', BitVec.getLsbD_and, BitVec.getLsbD_setWidth, BitVec.getLsbD_ushiftRight]
    interval_cases j <;> simp
  rw [h, BitVec.toNat_setWidth, Nat.mod_eq_of_lt ((dlenField c).isLt.trans (by norm_num))]

end Sys2Proof
end

