-- ==== Sys2Proof/Laws/Gf2.lean ====
section
/-! SUPPORT. Arithmetic over GF(2): the degree, the product, the multiples of a polynomial, and the long division of
41_crc.md R122 (it is linear, it leaves a value below 2^d alone, and it subtracts a multiple). -/

namespace Sys2Proof.Machine

open Sys2Proof.Safety

/-! ## Degree -/

theorem degree_eq_log2 (p : Nat) : degree p = p.log2 := by
  unfold degree bitlen
  split
  · rename_i h; simp [h]
  · omega

theorem lt_two_pow_degree (p : Nat) : p < 2 ^ (degree p + 1) := by
  rw [degree_eq_log2]; exact Nat.lt_log2_self

theorem two_pow_degree_le {p : Nat} (h : p ≠ 0) : 2 ^ degree p ≤ p := by
  rw [degree_eq_log2]; exact Nat.log2_self_le h

/-- The leading bit is 1 (R120). -/
theorem testBit_degree {p : Nat} (h : p ≠ 0) : p.testBit (degree p) = true := by
  have h1 := two_pow_degree_le h
  have h2 := lt_two_pow_degree p
  rw [pow_succ] at h2
  rw [Nat.testBit_eq_decide_div_mod_eq, decide_eq_true_eq]
  have : p / 2 ^ degree p = 1 := by
    rw [Nat.div_eq_iff (by positivity)]
    omega
  rw [this]

theorem testBit_above_degree {p j : Nat} (h : degree p < j) : p.testBit j = false :=
  Nat.testBit_lt_two_pow ((lt_two_pow_degree p).trans_le (Nat.pow_le_pow_right (by norm_num) h))

theorem degree_le_of_lt {p k : Nat} (h : p < 2 ^ (k + 1)) : degree p ≤ k := by
  rw [degree_eq_log2]
  by_cases h0 : p = 0
  · simp [h0]
  · have := (Nat.log2_lt h0).2 h
    omega

/-- Two numbers below 2^(k+1) that both have bit k: the sum is below 2^k. -/
theorem xor_lt_of_top {v w k : Nat} (hv : v < 2 ^ (k + 1)) (hw : w < 2 ^ (k + 1)) (h : v.testBit k = w.testBit k) :
    v ^^^ w < 2 ^ k := by
  apply Nat.lt_pow_two_of_testBit
  intro j hj
  rw [Nat.testBit_xor]
  rcases Nat.lt_or_ge k j with hlt | hge
  · rw [Nat.testBit_lt_two_pow (hv.trans_le (Nat.pow_le_pow_right (by norm_num) hlt)),
      Nat.testBit_lt_two_pow (hw.trans_le (Nat.pow_le_pow_right (by norm_num) hlt))]
    rfl
  · have : j = k := by omega
    subst this
    rw [h]; simp

theorem lt_of_top_clear {v k : Nat} (hv : v < 2 ^ (k + 1)) (h : v.testBit k = false) : v < 2 ^ k := by
  have := xor_lt_of_top hv (Nat.two_pow_pos (k + 1)) (w := 0) (by simpa using h)
  simpa using this

theorem shiftLeft_lt {v a b : Nat} (h : v < 2 ^ a) : v <<< b < 2 ^ (a + b) := by
  rw [Nat.shiftLeft_eq, pow_add]
  exact Nat.mul_lt_mul_of_pos_right h (by positivity)

/-! ## The product -/

theorem gfMulBits_xor (q r p n : Nat) : gfMulBits (q ^^^ r) p n = gfMulBits q p n ^^^ gfMulBits r p n := by
  induction n with
  | zero => simp [gfMulBits]
  | succ n ih =>
    simp only [gfMulBits, ih, Nat.testBit_xor]
    cases q.testBit n <;> cases r.testBit n <;> simp [Nat.xor_assoc, Nat.xor_comm, Nat.xor_left_comm]

/-- Bits that are 0 add nothing. -/
theorem gfMulBits_of_le {q p n m : Nat} (hq : q < 2 ^ n) (h : n ≤ m) : gfMulBits q p m = gfMulBits q p n := by
  induction m with
  | zero => rw [Nat.le_zero.1 h]
  | succ m ih =>
    rcases Nat.lt_or_ge m n with hlt | hge
    · rw [show n = m + 1 by omega]
    · rw [gfMulBits, ih hge, Nat.testBit_lt_two_pow (hq.trans_le (Nat.pow_le_pow_right (by norm_num) hge))]
      simp

theorem lt_two_pow_bitlen (q : Nat) : q < 2 ^ bitlen q := by
  unfold bitlen
  split
  · rename_i h; simp [h]
  · exact Nat.lt_log2_self

/-- The product may be taken over any number of bits that holds the factor. -/
theorem gfMul_eq_bits {q p n : Nat} (hq : q < 2 ^ n) : gfMul q p = gfMulBits q p n := by
  rw [gfMul, ← gfMulBits_of_le (lt_two_pow_bitlen q) (Nat.le_max_left (bitlen q) n),
    ← gfMulBits_of_le hq (Nat.le_max_right (bitlen q) n)]

/-- The product is linear. -/
theorem gfMul_xor (q r p : Nat) : gfMul (q ^^^ r) p = gfMul q p ^^^ gfMul r p := by
  have hm : ∀ {x n}, x < 2 ^ n → ∀ m, n ≤ m → x < 2 ^ m := fun h m hle => h.trans_le (Nat.pow_le_pow_right (by norm_num) hle)
  let n := max (bitlen q) (bitlen r)
  have hq : q < 2 ^ n := hm (lt_two_pow_bitlen q) n (Nat.le_max_left _ _)
  have hr : r < 2 ^ n := hm (lt_two_pow_bitlen r) n (Nat.le_max_right _ _)
  rw [gfMul_eq_bits hq, gfMul_eq_bits hr, gfMul_eq_bits (Nat.xor_lt_two_pow hq hr), gfMulBits_xor]

@[simp] theorem gfMul_zero (p : Nat) : gfMul 0 p = 0 := rfl

theorem gfMul_two_pow (i p : Nat) : gfMul (2 ^ i) p = p <<< i := by
  have h0 : gfMulBits (2 ^ i) p i = 0 := by
    have : ∀ n, n ≤ i → gfMulBits (2 ^ i) p n = 0 := by
      intro n
      induction n with
      | zero => intro; rfl
      | succ n ih =>
        intro hn
        rw [gfMulBits, ih (by omega), Nat.testBit_two_pow_of_ne (by omega)]
        simp
    exact this i (le_refl i)
  rw [gfMul_eq_bits (n := i + 1) (Nat.pow_lt_pow_right (by norm_num) (by omega)), gfMulBits, h0, Nat.testBit_two_pow_self]
  simp

theorem gfMulBits_lt (q p n : Nat) : gfMulBits q p n < 2 ^ (n + degree p) := by
  induction n with
  | zero => exact Nat.two_pow_pos _
  | succ n ih =>
    rw [gfMulBits]
    apply Nat.xor_lt_two_pow
    · exact ih.trans (Nat.pow_lt_pow_right (by norm_num) (by omega))
    · split
      · have := shiftLeft_lt (b := n) (lt_two_pow_degree p)
        rwa [show degree p + 1 + n = n + 1 + degree p by omega] at this
      · exact Nat.two_pow_pos _

/-- The leading bit of a product is the sum of the degrees. -/
theorem testBit_gfMul_top {q p : Nat} (hq : q ≠ 0) (hp : p ≠ 0) : (gfMul q p).testBit (degree q + degree p) = true := by
  rw [gfMul_eq_bits (lt_two_pow_degree q), gfMulBits, Nat.testBit_xor, testBit_degree hq, if_pos rfl,
    Nat.testBit_lt_two_pow (gfMulBits_lt q p (degree q)), Nat.testBit_shiftLeft]
  simp [testBit_degree hp]

theorem two_pow_le_gfMul {q p : Nat} (hq : q ≠ 0) (hp : p ≠ 0) : 2 ^ degree p ≤ gfMul q p :=
  (Nat.pow_le_pow_right (by norm_num) (by omega)).trans (Nat.ge_two_pow_of_testBit (testBit_gfMul_top hq hp))

/-- Below the lowest bits of the factors, and at their sum. -/
theorem testBit_gfMulBits_low {q p l a : Nat} (hq : ∀ i, i < l → q.testBit i = false)
    (hp : ∀ j, j < a → p.testBit j = false) (n : Nat) :
    (gfMulBits q p n).testBit (l + a) = (decide (l < n) && (q.testBit l && p.testBit a)) := by
  induction n with
  | zero => simp [gfMulBits]
  | succ n ih =>
    rw [gfMulBits, Nat.testBit_xor, ih]
    rcases Nat.lt_trichotomy l n with hlt | heq | hgt
    · have : (if q.testBit n = true then p <<< n else 0).testBit (l + a) = false := by
        split
        · rw [Nat.testBit_shiftLeft]
          by_cases h : l + a ≥ n
          · rw [hp (l + a - n) (by omega)]; simp
          · simp [h]
        · simp
      rw [this]; simp [hlt, show l < n + 1 by omega]
    · subst heq
      simp only [lt_irrefl, decide_false, Bool.false_and, Bool.false_xor, Nat.lt_succ_self, decide_true, Bool.true_and]
      cases hb : q.testBit l
      · simp
      · simp [Nat.testBit_shiftLeft]
    · rw [hq n hgt]
      simp [show ¬l < n by omega, show ¬l < n + 1 by omega]

theorem gfMulBits_shift (q p j n : Nat) : gfMulBits (q <<< j) p (n + j) = gfMulBits q p n <<< j := by
  induction n with
  | zero =>
    have : ∀ m, m ≤ j → gfMulBits (q <<< j) p m = 0 := by
      intro m
      induction m with
      | zero => intro; rfl
      | succ m ih =>
        intro hm
        rw [gfMulBits, ih (by omega), Nat.testBit_shiftLeft]
        simp [show ¬m ≥ j by omega]
    simp [gfMulBits, this]
  | succ n ih =>
    rw [show n + 1 + j = (n + j) + 1 by omega, gfMulBits, ih, gfMulBits, Nat.testBit_shiftLeft, Nat.shiftLeft_xor_distrib]
    simp only [ge_iff_le, Nat.le_add_left, decide_true, Bool.true_and, Nat.add_sub_cancel]
    cases q.testBit n
    · simp
    · simp [Nat.shiftLeft_add]

/-- A factor x^j may be taken out. -/
theorem gfMul_shift (q p j : Nat) : gfMul (q <<< j) p = gfMul q p <<< j := by
  rw [gfMul_eq_bits (n := bitlen q + j) (shiftLeft_lt (lt_two_pow_bitlen q)), gfMulBits_shift]
  rfl

/-- Multiplying by x^d shifts. -/
theorem gfMul_monomial (w d : Nat) : gfMul w (2 ^ d) = w <<< d := by
  have key : ∀ n, gfMulBits w (2 ^ d) n = (w % 2 ^ n) <<< d := by
    intro n
    induction n with
    | zero => simp [gfMulBits, Nat.mod_one]
    | succ n ih =>
      rw [gfMulBits, ih]
      apply Nat.eq_of_testBit_eq
      intro j
      have hsum : (if w.testBit n = true then 2 ^ d <<< n else 0).testBit j = (w.testBit n && decide (d + n = j)) := by
        rw [← Nat.one_shiftLeft, ← Nat.shiftLeft_add, Nat.one_shiftLeft]
        cases w.testBit n <;> simp [Nat.testBit_two_pow]
      rw [Nat.testBit_xor, hsum, Nat.testBit_shiftLeft, Nat.testBit_shiftLeft, Nat.testBit_mod_two_pow,
        Nat.testBit_mod_two_pow]
      rcases Nat.lt_or_ge j d with hj | hj
      · simp [show ¬j ≥ d by omega, show d + n ≠ j by omega]
      · rcases Nat.lt_trichotomy (j - d) n with hlt | heq | hgt
        · simp [hj, hlt, show j - d < n + 1 by omega, show d + n ≠ j by omega]
        · simp [hj, heq, show d + n = j by omega]
        · simp [show ¬j - d < n by omega, show ¬j - d < n + 1 by omega, show d + n ≠ j by omega]
  rw [gfMul, key, Nat.mod_eq_of_lt (lt_two_pow_bitlen w)]

/-! ## Multiples -/

theorem GfMultiple_zero (p : Nat) : GfMultiple p 0 := ⟨0, rfl⟩

theorem GfMultiple_xor {p a b : Nat} (ha : GfMultiple p a) (hb : GfMultiple p b) : GfMultiple p (a ^^^ b) := by
  obtain ⟨q, rfl⟩ := ha
  obtain ⟨r, rfl⟩ := hb
  exact ⟨q ^^^ r, (gfMul_xor q r p).symm⟩

theorem GfMultiple_shift (p i : Nat) : GfMultiple p (p <<< i) := ⟨2 ^ i, (gfMul_two_pow i p).symm⟩

theorem GfMultiple_shiftLeft {p a : Nat} (h : GfMultiple p a) (j : Nat) : GfMultiple p (a <<< j) := by
  obtain ⟨q, rfl⟩ := h
  exact ⟨q <<< j, (gfMul_shift q p j).symm⟩

/-- The only multiple of degree below that of the polynomial is 0. -/
theorem GfMultiple_small {p a : Nat} (hp : p ≠ 0) (h : GfMultiple p a) (ha : a < 2 ^ degree p) : a = 0 := by
  obtain ⟨q, rfl⟩ := h
  by_cases hq : q = 0
  · simp [hq]
  · have := two_pow_le_gfMul hq hp
    omega

/-- An odd polynomial and x share no factor. -/
theorem GfMultiple_of_shiftLeft {p a j : Nat} (hp : p % 2 = 1) (h : GfMultiple p (a <<< j)) : GfMultiple p a := by
  obtain ⟨q, hq⟩ := h
  have hp0 : p.testBit 0 = true := by simp [Nat.testBit_zero, hp]
  have hlow : ∀ i, i < j → q.testBit i = false := by
    intro i
    induction i using Nat.strong_induction_on with
    | _ i ih =>
      intro hi
      have h1 := testBit_gfMulBits_low (q := q) (p := p) (l := i) (a := 0) (fun k hk => ih k hk (by omega))
        (fun k hk => absurd hk (Nat.not_lt_zero k)) (bitlen q + i + 1)
      rw [← gfMul_eq_bits ((lt_two_pow_bitlen q).trans_le (Nat.pow_le_pow_right (by norm_num) (by omega))), ← hq,
        Nat.testBit_shiftLeft, hp0] at h1
      simpa [show ¬i ≥ j by omega, show i < bitlen q + i + 1 by omega] using h1.symm
  have hqs : q = (q >>> j) <<< j := by
    apply Nat.eq_of_testBit_eq
    intro i
    rw [Nat.testBit_shiftLeft, Nat.testBit_shiftRight]
    by_cases hi : i ≥ j
    · simp [hi, show j + (i - j) = i by omega]
    · simp [hi, hlow i (by omega)]
  rw [hqs, gfMul_shift] at hq
  refine ⟨q >>> j, ?_⟩
  rw [Nat.shiftLeft_eq, Nat.shiftLeft_eq] at hq
  exact Nat.eq_of_mul_eq_mul_right (Nat.two_pow_pos j) hq

/-! ## The division -/

theorem crcDiv_zero (v p : Nat) : crcDiv v p 0 = v % 2 ^ degree p := rfl

theorem crcDiv_succ (v p i : Nat) :
    crcDiv v p (i + 1) = crcDiv (if v.testBit (i + degree p) then v ^^^ (p <<< i) else v) p i := rfl

/-- The remainder has degree below that of the polynomial. -/
theorem crcDiv_lt (v p n : Nat) : crcDiv v p n < 2 ^ degree p := by
  induction n generalizing v with
  | zero => exact Nat.mod_lt _ (Nat.two_pow_pos _)
  | succ n ih => rw [crcDiv_succ]; exact ih _

/-- The division is linear. -/
theorem crcDiv_xor (v w p n : Nat) : crcDiv (v ^^^ w) p n = crcDiv v p n ^^^ crcDiv w p n := by
  induction n generalizing v w with
  | zero => rw [crcDiv_zero, crcDiv_zero, crcDiv_zero, Nat.xor_mod_two_pow]
  | succ n ih =>
    rw [crcDiv_succ, crcDiv_succ, crcDiv_succ, ← ih, Nat.testBit_xor]
    congr 1
    cases v.testBit (n + degree p) <;> cases w.testBit (n + degree p) <;> simp [Nat.xor_comm, Nat.xor_left_comm]

/-- A value of degree below that of the polynomial is its own remainder. -/
theorem crcDiv_small {v p : Nat} (h : v < 2 ^ degree p) (n : Nat) : crcDiv v p n = v := by
  induction n with
  | zero => exact Nat.mod_eq_of_lt h
  | succ n ih =>
    rw [crcDiv_succ, Nat.testBit_lt_two_pow (h.trans_le (Nat.pow_le_pow_right (by norm_num) (Nat.le_add_left _ _)))]
    exact ih

/-- Each step clears its leading position (R122). -/
theorem crcDiv_step_lt {v p i : Nat} (hp : p ≠ 0) (h : v < 2 ^ (i + 1 + degree p)) :
    (if v.testBit (i + degree p) then v ^^^ (p <<< i) else v) < 2 ^ (i + degree p) := by
  rw [show i + 1 + degree p = i + degree p + 1 by omega] at h
  split
  · rename_i hb
    apply xor_lt_of_top h
    · have := shiftLeft_lt (b := i) (lt_two_pow_degree p)
      rwa [show degree p + 1 + i = i + degree p + 1 by omega] at this
    · rw [hb, Nat.testBit_shiftLeft]
      simp [testBit_degree hp]
  · rename_i hb
    exact lt_of_top_clear h (by simpa using hb)

/-- The division subtracts a multiple of the polynomial (R128). -/
theorem crcDiv_multiple {p : Nat} (hp : p ≠ 0) {v n : Nat} (h : v < 2 ^ (n + degree p)) :
    GfMultiple p (v ^^^ crcDiv v p n) := by
  induction n generalizing v with
  | zero =>
    rw [crcDiv_zero, Nat.mod_eq_of_lt (by simpa using h), Nat.xor_self]
    exact GfMultiple_zero p
  | succ n ih =>
    rw [crcDiv_succ]
    have h1 := ih (crcDiv_step_lt hp h)
    revert h1
    split
    · intro h1
      have h2 := GfMultiple_xor h1 (GfMultiple_shift p n)
      rwa [show v ^^^ p <<< n ^^^ crcDiv (v ^^^ p <<< n) p n ^^^ p <<< n = v ^^^ crcDiv (v ^^^ p <<< n) p n by
        rw [Nat.xor_right_comm, Nat.xor_assoc v, Nat.xor_self, Nat.xor_zero]] at h2
    · exact id

/-- The remainder is 0 just for the multiples of the polynomial. -/
theorem crcDiv_eq_zero_iff {p : Nat} (hp : p ≠ 0) {v n : Nat} (h : v < 2 ^ (n + degree p)) :
    crcDiv v p n = 0 ↔ GfMultiple p v := by
  have hm := crcDiv_multiple hp h
  constructor
  · intro h0; simpa [h0] using hm
  · intro hv
    apply GfMultiple_small hp _ (crcDiv_lt v p n)
    have := GfMultiple_xor hv hm
    rwa [← Nat.xor_assoc, Nat.xor_self, Nat.zero_xor] at this

end Sys2Proof.Machine
end

