-- ==== Sys2Proof/Laws/PerInstr.lean ====
section
/-! SUPPORT. Statements made per command. TableRow: the word of a command is in its row of spec/opcode_table.json: under the
row's mask it is the row's match. -/

namespace Sys2Proof.Laws.TableRow

/-- The mask of every row of the opcode table: all bits but DLEN. -/
def mask : Word := 0xFFFFC0FF#32

/-- The match of a command's row in the opcode table (30_encoding.md R82). -/
def rowMatch : Instr → Word
  | .nop _ => 0x00000000#32
  | .crcCompute _ => 0x00000001#32
  | .crcVerify _ => 0x00000002#32
  | .crcTblLoad _ => 0x00000003#32
  | .crcTblRead _ => 0x00000004#32
  | .hamEncode _ => 0x00000008#32
  | .hamDecode _ => 0x00000009#32

/-- The word of a well-formed command is in its row. -/
def Statement (i : Instr) : Prop := i.wf = true → encode i &&& mask = rowMatch i

theorem nop (n : Nat) : Statement (.nop n) := fun h =>
  (by decide : ∀ n : Fin 64, encode (.nop n) &&& mask = rowMatch (.nop n)) ⟨n, of_decide_eq_true h⟩

theorem crcCompute (n : Nat) : Statement (.crcCompute n) := fun h =>
  (by decide : ∀ n : Fin 64, encode (.crcCompute n) &&& mask = rowMatch (.crcCompute n)) ⟨n, of_decide_eq_true h⟩

theorem crcVerify (n : Nat) : Statement (.crcVerify n) := fun h =>
  (by decide : ∀ n : Fin 64, encode (.crcVerify n) &&& mask = rowMatch (.crcVerify n)) ⟨n, of_decide_eq_true h⟩

theorem crcTblLoad (n : Nat) : Statement (.crcTblLoad n) := fun h =>
  (by decide : ∀ n : Fin 64, encode (.crcTblLoad n) &&& mask = rowMatch (.crcTblLoad n)) ⟨n, of_decide_eq_true h⟩

theorem crcTblRead (n : Nat) : Statement (.crcTblRead n) := fun h =>
  (by decide : ∀ n : Fin 64, encode (.crcTblRead n) &&& mask = rowMatch (.crcTblRead n)) ⟨n, of_decide_eq_true h⟩

theorem hamEncode (n : Nat) : Statement (.hamEncode n) := fun h =>
  (by decide : ∀ n : Fin 64, encode (.hamEncode n) &&& mask = rowMatch (.hamEncode n)) ⟨n, of_decide_eq_true h⟩

theorem hamDecode (n : Nat) : Statement (.hamDecode n) := fun h =>
  (by decide : ∀ n : Fin 64, encode (.hamDecode n) &&& mask = rowMatch (.hamDecode n)) ⟨n, of_decide_eq_true h⟩

end Sys2Proof.Laws.TableRow
end

