-- ==== Sys2Proof/Laws/Step.lean ====
section
/-! SUPPORT. What a step can do, said once: `step_performs`, `step_completes` and the four cases of `step_cases`. -/

namespace Sys2Proof.Machine

open Sys2Proof.Safety

/-- An idle block performs the access that is next. -/
theorem step_performs {a : Access} {s s' : State} (h : PerformsNext a s s') : step s = .next (performAccess a s') := by
  obtain ⟨hb, ⟨as, hh, rfl⟩ | ⟨hh, es, he, rfl⟩⟩ := h
  · have : step s = .next (performAccess a (s.setHeld as)) := by simp [step, nextState, hb, idleNext, hh]
    exact this
  · have : step s = .next (performAccess a (s.setEvents es)) := by simp [step, nextState, hb, idleNext, hh, he]
    exact this

/-- Taking the next access away leaves the block, its command and the answers. -/
theorem PerformsNext_frame {a : Access} {s s' : State} (h : PerformsNext a s s') :
    s'.block = s.block ∧ s'.cmd = s.cmd ∧ s'.answers = s.answers := by
  obtain ⟨-, ⟨as, -, rfl⟩ | ⟨-, es, -, rfl⟩⟩ := h <;> exact ⟨rfl, rfl, rfl⟩

/-- The word of the command in progress is executed on the block alone. -/
theorem execute_cases (s : State) :
    (∃ i, decode s.cmd = .ok i ∧ execute s = .next { s with block := commandBlock i s.block }) ∨
    (∃ e, decode s.cmd = .error e ∧ execute s = .next { s with block := s.block.raise .cmd }) := by
  cases h : decode s.cmd with
  | ok i => left; exact ⟨i, rfl, by rw [execute, h]; exact exec_eq_next i s⟩
  | error e => right; exact ⟨e, rfl, by rw [execute, h]; rfl⟩

/-- The block after the execution of a command word. -/
def executeBlock (c : Word) (b : Block) : Block :=
  match decode c with
  | .ok i => commandBlock i b
  | .error _ => b.raise .cmd

theorem execute_eq (s : State) : execute s = .next { s with block := executeBlock s.cmd s.block } := by
  rcases execute_cases s with ⟨i, hd, he⟩ | ⟨e, hd, he⟩ <;> rw [he, executeBlock, hd]

/-- The command in progress completes: its effects, `busy` 0, and no copy of its word. -/
theorem finishCommand_eq (s : State) :
    finishCommand s =
      .next { s with block := { executeBlock s.cmd s.block with busy := false }, cmd := 0#32 } := by
  rw [finishCommand, execute_eq]
  rfl

theorem step_completes {s s' : State} (h : CompletesNext s s') :
    step s = .next { s' with block := { executeBlock s'.cmd s'.block with busy := false }, cmd := 0#32 } := by
  rw [← finishCommand_eq]
  obtain ⟨hb, ⟨he, rfl⟩ | ⟨es, he, rfl⟩⟩ := h
  · simp only [step, nextState, hb, busyNext, he]; rfl
  · simp only [step, nextState, hb, busyNext, he]; rfl

/-- Taking the completion away leaves everything but the events. -/
theorem CompletesNext_frame {s s' : State} (h : CompletesNext s s') :
    s'.block = s.block ∧ s'.cmd = s.cmd ∧ s'.held = s.held ∧ s'.answers = s.answers := by
  obtain ⟨-, ⟨-, rfl⟩ | ⟨es, -, rfl⟩⟩ := h <;> exact ⟨rfl, rfl, rfl, rfl⟩

/-- The reset is what happens next. -/
def ResetsNext (keep : List Bool) (s s' : State) : Prop :=
  (s.block.busy = true ∨ s.held = []) ∧ ∃ es, s.events = .hwReset keep :: es ∧ s' = { s with events := es }

theorem step_resets {keep : List Bool} {s s' : State} (h : ResetsNext keep s s') :
    step s = .next (hardwareReset keep s') := by
  obtain ⟨hb, es, he, rfl⟩ := h
  cases hbusy : s.block.busy with
  | true => simp only [step, nextState, hbusy, busyNext, he]; rfl
  | false =>
    have hh : s.held = [] := by simpa [hbusy] using hb
    have : step s = .next (hardwareReset keep (s.setEvents es)) := by simp [step, nextState, hbusy, idleNext, hh, he]
    exact this

/-- An access reaches the busy block. -/
theorem step_arrives {a : Access} {s : State} {es : List Event} (hb : s.block.busy = true)
    (he : s.events = .access a :: es) : step s = .next (arriveBusy a { s with events := es }) := by
  simp only [step, nextState, hb, busyNext, he]; rfl

/-- What a step can do, from any state. -/
theorem step_cases (s : State) :
    (∃ a s', PerformsNext a s s' ∧ step s = .next (performAccess a s')) ∨
    (∃ s', CompletesNext s s' ∧
      step s = .next { s' with block := { executeBlock s'.cmd s'.block with busy := false }, cmd := 0#32 }) ∨
    (∃ keep s', ResetsNext keep s s' ∧ step s = .next (hardwareReset keep s')) ∨
    (∃ a es, s.block.busy = true ∧ s.events = .access a :: es ∧
      step s = .next (arriveBusy a { s with events := es })) ∨
    (s.block.busy = false ∧ s.held = [] ∧ s.events = [] ∧ step s = .next s) ∨
    (∃ es, s.block.busy = false ∧ s.held = [] ∧ s.events = .complete :: es ∧ step s = .next (s.setEvents es)) := by
  cases hb : s.block.busy with
  | true =>
    cases he : s.events with
    | nil =>
      have h : CompletesNext s s := ⟨hb, .inl ⟨he, rfl⟩⟩
      exact .inr (.inl ⟨s, h, step_completes h⟩)
    | cons e es =>
      cases e with
      | access a => exact .inr (.inr (.inr (.inl ⟨a, es, rfl, rfl, step_arrives hb he⟩)))
      | complete =>
        have h : CompletesNext s { s with events := es } := ⟨hb, .inr ⟨es, he, rfl⟩⟩
        exact .inr (.inl ⟨_, h, step_completes h⟩)
      | hwReset keep =>
        have h : ResetsNext keep s { s with events := es } := ⟨.inl hb, es, he, rfl⟩
        exact .inr (.inr (.inl ⟨keep, _, h, step_resets h⟩))
  | false =>
    cases hh : s.held with
    | cons a as =>
      have h : PerformsNext a s { s with held := as } := ⟨hb, .inl ⟨as, hh, rfl⟩⟩
      exact .inl ⟨a, _, h, step_performs h⟩
    | nil =>
      cases he : s.events with
      | nil =>
        refine .inr (.inr (.inr (.inr (.inl ⟨rfl, rfl, rfl, ?_⟩))))
        simp only [step, nextState, hb, idleNext, hh, he]; rfl
      | cons e es =>
        cases e with
        | access a =>
          have h : PerformsNext a s { s with events := es } := ⟨hb, .inr ⟨hh, es, he, rfl⟩⟩
          exact .inl ⟨a, _, h, step_performs h⟩
        | complete =>
          have : step s = .next (s.setEvents es) := by simp [step, nextState, hb, idleNext, hh, he]
          exact .inr (.inr (.inr (.inr (.inr ⟨es, rfl, rfl, rfl, this⟩))))
        | hwReset keep =>
          have h : ResetsNext keep s { s with events := es } := ⟨.inr hh, es, he, rfl⟩
          exact .inr (.inr (.inl ⟨keep, _, h, step_resets h⟩))

/-- A run of one step more goes on from the step's next state. -/
theorem run_of_step {s t : State} (h : step s = .next t) (k : Nat) :
    Host.Core.run core (k + 1) s = Host.Core.run core k t := by
  have h' : Host.Core.step core s = .next t := h
  simp only [Host.Core.run, h']

end Sys2Proof.Machine
end

