-- ==== Sys2Proof/Laws/Table.lean ====
section
/-! SUPPORT. The lookup table: what a build leaves in it, what `ensure_table` leaves (41_crc.md R125 to R127), and the value
CRC_COMPUTE writes by either path. -/

namespace Sys2Proof.Machine

open Sys2Proof.Safety

theorem crcCompute_lt (w p n : Nat) : crcCompute w p n < 2 ^ degree p := crcDiv_lt _ _ _

/-- A polynomial of 33 bits has degree at most 32 (R120). -/
theorem degree_poly_le (p : BitVec 33) : degree p.toNat ≤ 32 := degree_le_of_lt p.isLt

/-- Every remainder fits CRC_OUT (10_state.md R29). -/
theorem crcDiv_lt_word (v n : Nat) (p : BitVec 33) : crcDiv v p.toNat n < 2 ^ 32 :=
  (crcDiv_lt _ _ _).trans_le (Nat.pow_le_pow_right (by norm_num) (degree_poly_le p))

/-- The entry of a degree-8 table at b is the CRC of b (R125). -/
theorem tableEntry_toNat {p : Nat} (hd : degree p = 8) (b : Nat) : (tableEntry p b).toNat = crcCompute b p 8 := by
  rw [tableEntry, BitVec.toNat_ofNat, crcCompute, hd, Nat.mod_eq_of_lt]
  have := crcDiv_lt (b <<< 8) p 8
  rwa [hd] at this

/-- A degree-8 polynomial fits its tag (10_state.md R32). -/
theorem setWidth_tag {p : BitVec 33} (hd : degree p.toNat = 8) : (p.setWidth 9).setWidth 33 = p := by
  have := lt_two_pow_degree p.toNat
  rw [hd] at this
  apply BitVec.eq_of_toNat_eq
  simp
  omega

/-- A tag is the number of the polynomial it stands for. -/
theorem toNat_tag {q : BitVec 9} {p : BitVec 33} (h : q.setWidth 33 = p) : q.toNat = p.toNat := by
  rw [← h, BitVec.toNat_setWidth, Nat.mod_eq_of_lt (q.isLt.trans (by norm_num))]

theorem HoldsTableOf_congr {p : BitVec 33} {b c : Block} (h : HoldsTableOf p b) (h1 : c.tbl = b.tbl)
    (h2 : c.tblPoly = b.tblPoly) (h3 : c.tblValid = b.tblValid) : HoldsTableOf p c := by
  unfold HoldsTableOf at *; rw [h1, h2, h3]; exact h

theorem buildTable_holds {p : BitVec 33} {b : Block} (hd : degree p.toNat = 8) (hw : Memory.wf b.tbl = true) :
    HoldsTableOf p (buildTable p b) := by
  refine ⟨rfl, setWidth_tag hd, fun i => ?_⟩
  rw [buildTable_tbl, buildCells_read hw, tableEntry_toNat hd]

/-- After `ensure_table` the block holds the table of the polynomial (R127). -/
theorem ensureTable_holds {p : BitVec 33} {b : Block} (hd : degree p.toNat = 8) (hw : Memory.wf b.tbl = true)
    (hs : TableSound b) : HoldsTableOf p (ensureTable p b) := by
  by_cases h : b.tblValid = true ∧ b.tblPoly.setWidth 33 = p
  · rw [ensureTable_hit h]
    refine ⟨h.1, h.2, fun i => ?_⟩
    obtain ⟨-, he⟩ := hs h.1
    rw [he, toNat_tag h.2, BitVec.toNat_ofNat, Nat.mod_eq_of_lt]
    have := crcCompute_lt i.toNat p.toNat 8
    rwa [hd] at this
  · rw [ensureTable_miss h]; exact buildTable_holds hd hw

/-- A block that holds the table of a degree-8 polynomial has a sound table. -/
theorem HoldsTableOf_sound {p : BitVec 33} {b : Block} (hd : degree p.toNat = 8) (h : HoldsTableOf p b) : TableSound b := by
  intro _
  rw [toNat_tag h.2.1]
  refine ⟨hd, fun i => ?_⟩
  rw [← h.2.2 i]
  simp

theorem ensureTable_din (p : BitVec 33) (b : Block) : (ensureTable p b).din = b.din := by rw [ensureTable_eq]

theorem withoutCache_ensureTable (p : BitVec 33) (b : Block) : withoutCache (ensureTable p b) = withoutCache b := by
  rw [ensureTable_eq]; rfl

/-- The entry a table command reads (R131, R134). -/
theorem read_of_holds {p : BitVec 33} {b : Block} (h : HoldsTableOf p b) (d : BitVec 64) (hn : d.toNat < 256) :
    ((Memory.read b.tbl (d.setWidth 8)).setWidth 32 : Word).toNat = crcCompute d.toNat p.toNat 8 := by
  have hr := h.2.2 (d.setWidth 8)
  rw [show (d.setWidth 8).toNat = d.toNat by simp; omega] at hr
  rw [← hr, BitVec.toNat_setWidth, Nat.mod_eq_of_lt]
  have := (Memory.read b.tbl (d.setWidth 8)).isLt
  omega

/-- CRC_COMPUTE on the table path: the table is made sure of, and one entry is read. -/
theorem performCrcCompute_table {b : Block} (he : b.tblEn = true) (hd : degree b.poly.toNat = 8) :
    performCrcCompute 8 b =
      (ensureTable b.poly b).setCrcOut ((Memory.read (ensureTable b.poly b).tbl (b.din.setWidth 8)).setWidth 32) := by
  rw [performCrcCompute, if_pos ⟨he, by simp [tableEligible, hd]⟩]
  simp only [ensureTable_din]

/-- CRC_COMPUTE on the bitwise path: the table is not touched. -/
theorem performCrcCompute_bitwise {n : Nat} {b : Block} (h : ¬(b.tblEn = true ∧ n = 8 ∧ degree b.poly.toNat = 8)) :
    performCrcCompute n b = b.setCrcOut (BitVec.ofNat 32 (crcCompute b.din.toNat b.poly.toNat n)) := by
  rw [performCrcCompute, if_neg]
  rintro ⟨he, ht⟩
  exact h ⟨he, by simpa [tableEligible] using ht⟩

/-- Either path writes the CRC (R126). -/
theorem performCrcCompute_crcOut {n : Nat} {b : Block} (hw : Memory.wf b.tbl = true) (hs : TableSound b)
    (hr : n = 8 → b.din.toNat < 256) :
    (performCrcCompute n b).crcOut.toNat = crcCompute b.din.toNat b.poly.toNat n := by
  by_cases h : b.tblEn = true ∧ n = 8 ∧ degree b.poly.toNat = 8
  · obtain ⟨he, rfl, hd⟩ := h
    rw [performCrcCompute_table he hd]
    exact read_of_holds (ensureTable_holds hd hw hs) b.din (hr rfl)
  · rw [performCrcCompute_bitwise h, Block.setCrcOut_crcOut, BitVec.toNat_ofNat, Nat.mod_eq_of_lt]
    exact crcDiv_lt_word _ _ _

end Sys2Proof.Machine
end

