-- ==== Sys2Proof/Tests/Slice0.lean ====
section
/-! SUPPORT. The model's own tests. `test_…`: words written out from the encoding and one-step results taken from
spec/95_test_vectors.md and the rules' examples. `witness_…`: for each statement with hypotheses, inputs that meet them. -/

namespace Sys2Proof.Tests

open Sys2Proof Sys2Proof.Machine Sys2Proof.Safety

/-! ## Well-formedness and decoding -/

/-- DLEN has six bits (R81): 64 does not fit. -/
theorem test_wf_refuses_dlen_64 : (Instr.nop 64).wf = false ∧ (Instr.hamDecode 64).wf = false ∧ (Instr.nop 63).wf = true := by
  decide

/-- Bit patterns of R81 and R82: 18 zeros, DLEN, 4 zeros, OP. -/
theorem test_decode_nop : decode 0b00000000000000000011111100000000#32 = .ok (.nop 63) := by decide
theorem test_decode_crcCompute : decode 0b00000000000000000000100000000001#32 = .ok (.crcCompute 8) := by decide
theorem test_decode_crcVerify : decode 0b00000000000000000010000000000010#32 = .ok (.crcVerify 32) := by decide
theorem test_decode_crcTblLoad : decode 0b00000000000000000000000000000011#32 = .ok (.crcTblLoad 0) := by decide
theorem test_decode_crcTblRead : decode 0b00000000000000000000000100000100#32 = .ok (.crcTblRead 1) := by decide
theorem test_decode_hamEncode : decode 0b00000000000000000000000000001000#32 = .ok (.hamEncode 0) := by decide
theorem test_decode_hamDecode : decode 0b00000000000000000000000000001001#32 = .ok (.hamDecode 0) := by decide

/-- Reserved opcodes and reserved bits are illegal (R85). -/
theorem test_decode_illegal :
    (∀ op : Fin 16, op.val ∉ [0, 1, 2, 3, 4, 8, 9] → decode (BitVec.ofNat 32 op.val) = .error .reservedOp) ∧
    decode 0x00000011#32 = .error .rsv0 ∧ decode 0x80000001#32 = .error .rsv1 := by decide

/-- Little-endian lanes (R62), and a command is exactly four of them (R80). -/
theorem test_lanes : lanes 0x00000801#32 = [0x01#8, 0x08#8, 0x00#8, 0x00#8] ∧
    decodeBytes [0x01#8, 0x08#8, 0x00#8, 0x00#8] = .ok (.crcCompute 8) ∧ decodeBytes [0x01#8] = .error .notOneWord := by decide

/-- The words of spec/opcode_table.json, as it numbers them. -/
theorem test_decodeTableWord : decodeTableWord 32 0x00000009 = some (.hamDecode 0) ∧ decodeTableWord 32 0x00002002 = some (.crcVerify 32) ∧
    decodeTableWord 32 0x00000006 = none := by decide

/-- The pseudo-instructions (R89). -/
theorem test_pseudo (m : Nat) :
    HostLine.accesses m (.setPoly 0x104C11DB7#64) =
      [⟨m, Config.base + 0x10, 4, .write 0x04C11DB7#32⟩, ⟨m, Config.base + 0x14, 4, .write 0x00000001#32⟩] ∧
    HostLine.accesses m .clrErr = [⟨m, Config.base + 0x08, 4, .write 0x00001F00#32⟩] ∧
    HostLine.accesses m (.command (.crcCompute 8)) = [⟨m, Config.base + 0x0C, 4, .write 0x00000801#32⟩] := ⟨rfl, rfl, rfl⟩

/-! ## One step -/

/-- The block after reset with a polynomial and an operand, on the bitwise path. -/
def blockOf (p : BitVec 33) (d : BitVec 64) : Block := { Block.reset with poly := p, din := d, tblEn := false }

/-- A machine with that block. -/
def machine (b : Block) : State := { State.reset with block := b }

/-- The block an outcome holds. -/
def blockAfter : Host.Outcome State Fault Refusal → Option Block
  | .next t => some t.block
  | .fault _ => none
  | .refused _ => none

/-- A register read after a command. -/
def readAfter (r : Reg) (i : Instr) (b : Block) : Option Word := (blockAfter (exec i (machine b))).map (readReg r)

/-- R105: STATUS goes from 0x108 to 0x100. -/
theorem test_nop : readAfter .status (.nop 63) { Block.reset with errCmd := true, lastErr := true } = some 0x00000100#32 := by
  decide

/-- R123, R131: the CRC of 0x41 under 0x107. -/
theorem test_crcCompute_8 : readAfter .crcOut (.crcCompute 8) (blockOf 0x107#33 0x41#64) = some 0x000000C0#32 := by decide

set_option maxRecDepth 4000 in
/-- 95_test_vectors.md: P = 0x104C11DB7, w = 0xFFFFFFFF, n = 32. -/
theorem test_crcCompute_32 :
    readAfter .crcOut (.crcCompute 32) (blockOf 0x104C11DB7#33 0xFFFFFFFF#64) = some 0xC704DD7B#32 := by decide

/-- R132: 0x41C0 verifies. -/
theorem test_crcVerify_ok : readAfter .status (.crcVerify 8) (blockOf 0x107#33 0x41C0#64) = some 0x00000002#32 := by decide

/-- R132: 0x41C1 leaves the residue 1. -/
theorem test_crcVerify_fails : readAfter .crcOut (.crcVerify 8) (blockOf 0x107#33 0x41C1#64) = some 0x00000001#32 := by decide

/-- R133: a polynomial of degree 16 is rejected with ERR_TBL. -/
theorem test_crcTblLoad_degree : readAfter .status (.crcTblLoad 0) (blockOf 0x11021#33 0#64) = some 0x00000408#32 := by decide

/-- R133: after CRC_TBL_LOAD STATUS.TBL_VALID is 1. -/
theorem test_crcTblLoad_valid : readAfter .status (.crcTblLoad 0) (blockOf 0x107#33 0#64) = some 0x00000004#32 := by decide

/-- R125: entries of the table of 0x107. -/
theorem test_tableEntries : tableEntry 0x107 0x01 = 0x07#8 ∧ tableEntry 0x107 0x41 = 0xC0#8 ∧ tableEntry 0x107 0xFF = 0xF3#8 := by
  decide

/-- R134: an index above 255 is rejected with ERR_RANGE. -/
theorem test_crcTblRead_range : readAfter .status (.crcTblRead 0) (blockOf 0x107#33 0x100#64) = some 0x00000808#32 := by decide

/-- R134, R127: an entry of a table that is valid is read, not built. -/
theorem test_crcTblRead_hit : readAfter .crcOut (.crcTblRead 63)
    { blockOf 0x107#33 0xFF#64 with tbl := [(0xFF, 0xF3#8)], tblPoly := 0x107#9, tblValid := true } = some 0x000000F3#32 := by decide

/-- R170: the codeword of 0x41. -/
theorem test_hamEncode : readAfter .hamRes (.hamEncode 0) (blockOf 0x107#33 0x41#64) = some 0x41000891#32 := by decide

/-- R170: 0x100 is rejected, not truncated. -/
theorem test_hamEncode_range : readAfter .status (.hamEncode 0) (blockOf 0x107#33 0x100#64) = some 0x00000808#32 := by decide

/-- R171: 0xF6A is corrected to 0xF4A. -/
theorem test_hamDecode_corrected : readAfter .hamRes (.hamDecode 0) (blockOf 0x107#33 0xF6A#64) = some 0xAA017F4A#32 := by decide

/-- 95_test_vectors.md: 0x007 has syndrome 13. -/
theorem test_hamDecode_uncorrectable :
    readAfter .hamRes (.hamDecode 0) (blockOf 0x107#33 0x007#64) = some 0x0702D007#32 := by decide

/-- The step after withFetchWord runs the word: HAM_ENCODE of 0x41, then idle. -/
theorem test_step_runs_fetched_word :
    (blockAfter (step ((machine (blockOf 0x107#33 0x41#64)).withFetchWord 32 0x00000008))).map
      (fun b => (readReg .hamRes b, b.busy)) = some (0x41000891#32, false) := by decide

/-- R85: an illegal word in progress sets ERR_CMD and LAST_ERR. -/
theorem test_step_illegal_word :
    (blockAfter (step (State.reset.withFetchWord 32 0x00000005))).map (readReg .status) = some 0x00000108#32 := by decide

/-- R242, log 17: a program of one access runs until that access is performed. -/
theorem test_runEnded (m : Nat) :
    (State.reset.withHostProgram m [.read .id]).runEnded = false ∧ State.reset.runEnded = true ∧
    (State.reset.withFetchWord 32 0).runEnded = false := ⟨rfl, rfl, rfl⟩

/-! ## Memory -/

/-- Writing what an unlisted entry reads as removes the entry. -/
theorem test_memory_canonical : Memory.write [(3, 0x05#8)] 3#8 0x00#8 = [] ∧ Memory.write [(3, 0x05#8)] 2#8 0x01#8 = [(2, 0x01#8), (3, 0x05#8)] ∧
    Memory.wf [(2, 0x01#8), (3, 0x05#8)] = true ∧ Memory.wf [(3, 0x05#8), (2, 0x01#8)] = false ∧ Memory.wf [(2, 0x00#8)] = false := by
  decide

/-! ## Witnesses -/

/-- An access of master 0 to the register at an offset. -/
def access (off : Nat) (op : AccessOp) : Access := ⟨0, Config.base + off, 4, op⟩

/-- An idle machine at which one access arrives. -/
def arriving (a : Access) : State := { State.reset with events := [.access a] }

/-- An idle machine that still holds one access. -/
def holding (a : Access) : State := { State.reset with held := [a] }

/-- A machine that runs the word `c`, with what happens next. -/
def running (c : Word) (b : Block) (es : List Event) : State :=
  { State.reset with block := { b with busy := true }, cmd := c, events := es }

theorem accepted_access {off : Nat} (op : AccessOp) (h4 : off % 4 = 0) (h40 : off < 0x40) : acceptedAt off (access off op) :=
  ⟨rfl, rfl, h4, h40⟩

theorem performs_arriving (a : Access) : PerformsNext a (arriving a) State.reset := ⟨rfl, .inr ⟨rfl, [], rfl, rfl⟩⟩

theorem performs_holding (a : Access) : PerformsNext a (holding a) State.reset := ⟨rfl, .inl ⟨[], rfl, rfl⟩⟩

theorem completes_running (c : Word) (b : Block) (es : List Event) :
    CompletesNext (running c b (.complete :: es)) (running c b es) := ⟨rfl, .inr ⟨es, rfl, rfl⟩⟩

/-- With no event left the command completes too (log 13). -/
theorem completes_alone (c : Word) (b : Block) : CompletesNext (running c b []) (running c b []) := ⟨rfl, .inl ⟨rfl, rfl⟩⟩

/-- A table that is not valid is sound. -/
theorem sound_of_invalid {b : Block} (h : b.tblValid = false) : TableSound b := fun hv => by simp [h] at hv

/-- The block after reset with the table of 0x107 built. -/
def withTable : Block := ensureTable 0x107#33 Block.reset

theorem degree_default : degree (0x107#33 : BitVec 33).toNat = 8 := by decide

theorem withTable_holds : HoldsTableOf 0x107#33 withTable :=
  ensureTable_holds degree_default rfl (sound_of_invalid rfl)

theorem withTable_wf : Memory.wf withTable.tbl = true := ensureTable_wf rfl _

/-- A sound table that is valid. -/
theorem withTable_sound : withTable.tblValid = true ∧ TableSound withTable :=
  ⟨withTable_holds.1, HoldsTableOf_sound degree_default withTable_holds⟩

theorem witness_DecodeOfEncodeIsIdentity : (Instr.nop 0).wf = true ∧ (Instr.hamDecode 63).wf = true := by decide

theorem witness_EncodeOfDecodeIsIdentity : decode 0x00003F09#32 = .ok (.hamDecode 63) := by decide

theorem witness_EveryWordIsOneCommandOrIllegal :
    legalWord 0x00003F09#32 = true ∧ legalWord 0x00000005#32 = false ∧ legalWord 0x00000010#32 = false ∧
    legalWord 0x00004000#32 = false := by decide

/-- Both ends of the window, and of the reserved bits of STATUS. -/
theorem witness_RegisterMapOffsets : (0x00 % 4 = 0 ∧ 0x00 < 0x40) ∧ (0x3C % 4 = 0 ∧ 0x3C < 0x40) := by decide

theorem witness_StatusBitPlaces : (4 ≤ 4 ∧ 4 ≤ 7) ∧ (4 ≤ 7 ∧ 7 ≤ 7) ∧ 13 ≤ 13 ∧ 13 ≤ 31 := by decide

theorem witness_TblValidIsTheTagCompare :
    (readReg .status { Block.reset with tblPoly := 0x107#9, tblValid := true }).getLsbD 2 = true ∧
    (0x00000108#32 : Word) ≠ Block.reset.poly.extractLsb' 0 32 := by decide

theorem witness_HamResFieldPlaces : ∀ o : Outc, ∃ b : Block, b.hamOutc = o := fun o => ⟨{ Block.reset with hamOutc := o }, rfl⟩

/-- A byte access, a misaligned access, and accepted ones at both ends of the window. -/
theorem witness_BusErrorHasNoEffect :
    (∀ a, PerformsNext a (arriving a) State.reset) ∧
    (inWindow ⟨0, Config.base + 0x3F, 1, .read⟩ ∧ (⟨0, Config.base + 0x3F, 1, .read⟩ : Access).bytes ≠ 4) ∧
    (inWindow ⟨0, Config.base + 2, 4, .read⟩ ∧ (⟨0, Config.base + 2, 4, .read⟩ : Access).addr % 4 ≠ 0) ∧
    acceptedAt 0x00 (access 0x00 .read) ∧ acceptedAt 0x3C (access 0x3C (.write 1#32)) := by
  have hb := base_mod_four
  refine ⟨performs_arriving, ⟨?_, by decide⟩, ⟨?_, ?_⟩, accepted_access _ (by decide) (by decide),
    accepted_access _ (by decide) (by decide)⟩
  · simp only [inWindow]; omega
  · simp only [inWindow]; omega
  · simp only; omega

/-- The first address above the window, on an idle and on a busy block. -/
theorem witness_OutsideWindowHasNoEffect :
    ¬inWindow (access 0x40 .read) ∧ PerformsNext (access 0x40 .read) (arriving (access 0x40 .read)) State.reset ∧
    (running 0#32 Block.reset [.access (access 0x40 .read)]).block.busy = true := by
  refine ⟨?_, performs_arriving _, rfl⟩
  simp [inWindow, access]

/-- Two reads of CRC_OUT in a row. -/
theorem witness_ReadsHaveNoSideEffects :
    ∃ (s s' t t' : State) (a : Access), PerformsNext a s s' ∧ acceptedAt 0x20 a ∧ a.op = .read ∧ step s = .next t ∧
      PerformsNext a t t' :=
  let a := access 0x20 .read
  let s' : State := { State.reset with events := [.access a] }
  have h : PerformsNext a { State.reset with events := [.access a, .access a] } s' := ⟨rfl, .inr ⟨rfl, [.access a], rfl, rfl⟩⟩
  have ha : acceptedAt 0x20 a := accepted_access _ (by decide) (by decide)
  ⟨_, s', performReg a .crcOut s', performReg a .crcOut { s' with events := [] }, a, h, ha, rfl,
    by rw [step_performs h, performAccess_accepted ha]; rfl, ⟨rfl, .inr ⟨rfl, [], rfl, rfl⟩⟩⟩

theorem witness_OperandRegisterWrites :
    ∀ off : Fin 4, let a := access (0x10 + 4 * off.val) (.write 0xFFFFFFFF#32)
      PerformsNext a (holding a) State.reset ∧ acceptedAt (0x10 + 4 * off.val) a :=
  fun off => ⟨performs_holding _, accepted_access _ (by omega) (by omega)⟩

/-- ID, CRC_OUT and the first and last reserved offsets. -/
theorem witness_IgnoredWrites :
    ∀ off ∈ [0x00, 0x20, 0x28, 0x3C], ∀ op, PerformsNext (access off op) (arriving (access off op)) State.reset ∧
      acceptedAt off (access off op) := by
  intro off hoff op
  exact ⟨performs_arriving _, accepted_access _ (by revert off; decide) (by revert off; decide)⟩

theorem witness_StatusWriteClearsWrittenOnes :
    let a := access 0x08 (.write 0x00001F00#32)
    PerformsNext a (arriving a) State.reset ∧ acceptedAt 0x08 a :=
  ⟨performs_arriving _, accepted_access _ (by decide) (by decide)⟩

theorem witness_CtrlWriteSetsTblEn :
    let a := access 0x04 (.write 0xFFFFFFFD#32)
    PerformsNext a (arriving a) State.reset ∧ acceptedAt 0x04 a ∧ (0xFFFFFFFD#32 : Word).getLsbD 1 = false :=
  ⟨performs_arriving _, accepted_access _ (by decide) (by decide), by decide⟩

theorem witness_SoftResetIsAnAccess :
    let a := access 0x04 (.write 0x00000002#32)
    acceptedAt 0x04 a ∧ (0x00000002#32 : Word).getLsbD 1 = true ∧ PerformsNext a (holding a) State.reset ∧
      (running 1#32 Block.reset [.access a]).block.busy = true :=
  ⟨accepted_access _ (by decide) (by decide), by decide, performs_holding _, rfl⟩

/-- A CMD write on an idle block leaves it busy. -/
theorem witness_OnlyCmdWritesStartCommands :
    let s := arriving (access 0x0C (.write 0x00000801#32))
    s.block.busy = false ∧ ∃ t, step s = .next t ∧ t.block.busy = true :=
  ⟨rfl, _, by rw [step_performs (performs_arriving _), performAccess_accepted (accepted_access _ (by decide) (by decide))], rfl⟩

theorem witness_BusyBlockHoldsAccesses :
    inWindow (access 0x3C .read) ∧ ¬statusRead (access 0x3C .read) ∧ ¬statusRead (access 0x08 (.write 0#32)) ∧
    statusRead (access 0x08 .read) ∧ (running 1#32 Block.reset [.access (access 0x08 .read)]).block.busy = true ∧
    (holding (access 0x20 .read)).block.busy = false := by
  refine ⟨acceptedAt_inWindow (accepted_access _ (by decide) (by decide)), ?_, ?_,
    ⟨accepted_access _ (by decide) (by decide), rfl⟩, rfl, rfl⟩
  · rintro ⟨⟨h, -⟩, -⟩; simp [access] at h
  · rintro ⟨-, h⟩; cases h

/-- A busy step that is no reset, and an idle one that performs a held access while a reset waits. -/
theorem witness_NoAccessIsLost :
    (∃ t, step (running 0#32 Block.reset [.complete]) = .next t) ∧
    ∀ a keep es, ({ holding a with events := .hwReset keep :: es } : State).block.busy = false ∧ (holding a).held ≠ [] :=
  ⟨⟨_, step_completes (completes_running _ _ _)⟩, fun _ _ _ => ⟨rfl, by simp [holding]⟩⟩

theorem witness_StepRunsTheDecodedCommand :
    CompletesNext (running 0x00000801#32 Block.reset [.complete]) (running 0x00000801#32 Block.reset []) ∧
    decode 0x00000801#32 = .ok (.crcCompute 8) := ⟨completes_running _ _ _, by decide⟩

theorem witness_CmdWriteRunsItsWord :
    let a := access 0x0C (.write 0x00000801#32)
    PerformsNext a (arriving a) State.reset ∧ acceptedAt 0x0C a ∧
      ∃ s2, CompletesNext { State.reset with
        block := { Block.reset with busy := true }, cmd := 0x00000801#32, answers := [(a, .done)] } s2 :=
  ⟨performs_arriving _, accepted_access _ (by decide) (by decide), _, rfl, .inl ⟨rfl, rfl⟩⟩

theorem witness_IllegalWordIsRejected :
    legalWord (running 0x00000005#32 Block.reset []).cmd = false ∧ legalWord (running 0x00000000#32 Block.reset []).cmd = true := by
  decide

theorem witness_EveryCommandEnds :
    (running 0x00000801#32 Block.reset [.access (access 0x20 .read), .complete]).block.busy = true := rfl

theorem witness_HardwareResetAbandonsTheCommand :
    (running 0x00000801#32 Block.reset []).block.busy = true ∧
    (∀ a : Access, List.Sublist [] [a] ∧ List.Sublist [a] [a]) ∧
    (machine (blockOf 0x1FF#33 0x41#64)).block.busy = false ∧ (machine (blockOf 0x1FF#33 0x41#64)).held = [] :=
  ⟨rfl, fun _ => ⟨by simp, by simp⟩, rfl, rfl⟩

/-- A rejection without, and one with a fallback. -/
theorem witness_RejectionIsPrecise :
    (∃ t, execute (running 0x00000005#32 Block.reset []) = .next t ∧ t.block.lastErr = true) ∧
    (∃ t, execute (running 0x00000801#32 { Block.reset with poly := 0#33, din := 0x100#64 } []) = .next t ∧
      t.block.lastErr = true ∧ t.block.warnPoly = true) := by
  refine ⟨⟨_, execute_eq _, by decide⟩, ⟨_, execute_eq _, by decide, by decide⟩⟩

/-- Accepted without and with a fallback. -/
theorem witness_AcceptedCommandKeepsStickyFlags :
    (∃ t, execute (running 0x00000000#32 Block.reset []) = .next t ∧ t.block.lastErr = false) ∧
    (∃ t, execute (running 0x00000802#32 { Block.reset with poly := 1#33 } []) = .next t ∧
      t.block.lastErr = false ∧ t.block.warnPoly = true) := by
  refine ⟨⟨_, execute_eq _, by decide⟩, ⟨_, execute_eq _, by decide, by decide⟩⟩

theorem witness_FamiliesAreIndependent :
    (∀ i ∈ [Instr.crcCompute 8, .crcVerify 8, .crcTblLoad 0, .crcTblRead 0], i.op.toNat ∈ [1, 2, 3, 4]) ∧
    (∀ i ∈ [Instr.hamEncode 0, .hamDecode 0], i.op.toNat ∈ [8, 9]) := by decide

/-- The smallest and the largest data length with the largest operand; and the table path with a table that is valid. -/
theorem witness_CrcComputeResult :
    (Memory.wf (blockOf 0x107#33 1#64).tbl = true ∧ TableSound (blockOf 0x107#33 1#64) ∧
      (blockOf 0x107#33 1#64).din.toNat < 2 ^ 1) ∧
    (TableSound (blockOf 0x107#33 0xFFFFFFFF#64) ∧ (blockOf 0x107#33 0xFFFFFFFF#64).din.toNat < 2 ^ 32) ∧
    (Memory.wf withTable.tbl = true ∧ TableSound withTable ∧ withTable.din.toNat < 2 ^ 8) :=
  ⟨⟨rfl, sound_of_invalid rfl, by decide⟩, ⟨sound_of_invalid rfl, by decide⟩,
    withTable_wf, withTable_sound.2, by rw [withTable, ensureTable_din]; decide⟩

/-- n + d = 64: every operand is in range. -/
theorem witness_CrcVerifyResult :
    (blockOf 0x104C11DB7#33 0xFFFFFFFFFFFFFFFF#64).din.toNat <
      2 ^ (32 + degree (usedPoly (blockOf 0x104C11DB7#33 0xFFFFFFFFFFFFFFFF#64)).toNat) := by decide

/-- The lengths 0, 33 and 63; the smallest operand out of range for n = 8, after a fallback too. -/
theorem witness_CrcOperandChecks :
    ((0 = 0 ∨ 32 < 0) ∧ (33 = 0 ∨ 32 < 33)) ∧ 2 ^ 8 ≤ (blockOf 0x107#33 0x100#64).din.toNat ∧
    2 ^ (8 + degree (usedPoly (blockOf 0#33 0x10000#64)).toNat) ≤ (blockOf 0#33 0x10000#64).din.toNat := by decide

theorem witness_CrcTblLoadResult :
    (Memory.wf Block.reset.tbl = true ∧ TableSound Block.reset ∧ degree (usedPoly Block.reset).toNat = 8) ∧
    degree (usedPoly (blockOf 0x1FF#33 0#64)).toNat = 8 ∧ degree (usedPoly (blockOf 0#33 0#64)).toNat = 8 :=
  ⟨⟨rfl, sound_of_invalid rfl, by decide⟩, by decide, by decide⟩

theorem witness_CrcTblReadResult :
    let b := blockOf 0x100#33 0xFF#64
    Memory.wf b.tbl = true ∧ TableSound b ∧ degree (usedPoly b).toNat = 8 ∧ b.din.toNat < 256 :=
  ⟨rfl, sound_of_invalid rfl, by decide, by decide⟩

/-- Degrees 7 and 9, and the smallest index out of range. -/
theorem witness_TableCommandNeedsDegreeEight :
    degree (usedPoly (blockOf 0xFF#33 0#64)).toNat ≠ 8 ∧ degree (usedPoly (blockOf 0x200#33 0#64)).toNat ≠ 8 ∧
    degree (usedPoly (blockOf 0x107#33 0x100#64)).toNat = 8 ∧ 256 ≤ (blockOf 0x107#33 0x100#64).din.toNat := by decide

theorem witness_PolynomialFallback :
    (∀ i ∈ [Instr.crcCompute 1, .crcVerify 32, .crcTblLoad 0, .crcTblRead 63], i.op.toNat ∈ [1, 2, 3, 4] ∧
      (i.op.toNat ∈ [1, 2] → 1 ≤ i.dlen ∧ i.dlen ≤ 32)) ∧
    (∀ i s, ∃ t, exec i s = .next t) ∧ (blockOf 1#33 0#64).poly.toNat < 2 ∧ 2 ≤ (blockOf 2#33 0#64).poly.toNat :=
  ⟨by decide, fun i s => ⟨_, exec_eq_next i s⟩, by decide, by decide⟩

theorem witness_TablePathEqualsBitwisePath :
    (Memory.wf withTable.tbl = true ∧ TableSound withTable) ∧ Memory.wf Block.reset.tbl = true ∧ TableSound Block.reset :=
  ⟨⟨withTable_wf, withTable_sound.2⟩, rfl, sound_of_invalid rfl⟩

theorem witness_TableIsBuiltOncePerPolynomial :
    (withTable.tblValid = true ∧ withTable.tblPoly.setWidth 33 = 0x107#33) ∧
    (degree (0x100#33 : BitVec 33).toNat = 8 ∧ Block.reset.tblValid = false ∧ Memory.wf Block.reset.tbl = true) ∧
    ∃ t, exec (.crcTblLoad 0) State.reset = .next t ∧ t.block.lastErr = false :=
  ⟨⟨withTable_holds.1, withTable_holds.2.1⟩, ⟨by decide, rfl, rfl⟩, _, exec_eq_next _ _, by
    simp only [commandBlock, crcTblLoadBlock]
    rw [checkTable_pass (by decide)]
    rfl⟩

/-- P = x, n = 1, V = x + 1: the remainder is 1. -/
theorem witness_DivisionGivesTheRemainder :
    3 < 2 ^ (1 + degree 2) ∧ 1 < 2 ^ degree 2 ∧ GfMultiple 2 (3 ^^^ 1) := ⟨by decide, by decide, 1, by decide⟩

theorem witness_PacketsVerify : 2 ≤ 0x107 ∧ (0xFFFFFFFF : Nat) < 2 ^ 32 := by decide

/-- An error, a polynomial of two set bits and more, the monomial of degree 8, and an odd polynomial with a burst. -/
theorem witness_ErrorDetection :
    (0x41 < 2 ^ 8 ∧ 1 < 2 ^ (8 + degree 0x107)) ∧ (0x107 ≠ 2 ^ degree 0x107 ∧ 15 < 8 + degree 0x107) ∧
    (0x100 = 2 ^ degree 0x100 ∧ degree 0x100 ≤ 8) ∧ (0x107 % 2 = 1 ∧ 0xFF < 2 ^ degree 0x107 ∧ 0xFF <<< 8 < 2 ^ (8 + degree 0x107)) := by
  decide

theorem witness_VerifyReadingsAgreeForOddPolynomials : 2 ≤ 3 ∧ 3 % 2 = 1 ∧ 0x1FF < 2 ^ (8 + degree 3) := by decide

theorem witness_TableBuildFillsEveryEntry :
    degree (0x1FF#33 : BitVec 33).toNat = 8 ∧ degree (0x100#33 : BitVec 33).toNat = 8 ∧ Memory.wf Block.reset.tbl = true := by decide

theorem witness_HamEncodeResult : (blockOf 0#33 0xFF#64).din.toNat < 256 := by decide

theorem witness_HamDecodeResult : (blockOf 0#33 0xFFF#64).din.toNat < 4096 := by decide

theorem witness_HamOperandOutOfRange :
    256 ≤ (blockOf 0#33 0x100#64).din.toNat ∧ 4096 ≤ (blockOf 0#33 0x1000#64).din.toNat := by decide

/-- Every syndrome at the edges of its case: 0, 1, 12, 13, 15. -/
theorem witness_DecodeBySyndrome :
    hamSyndrome 0x000#12 = 0#4 ∧ (hamSyndrome 0x800#12).toNat = 1 ∧ (hamSyndrome 0x001#12).toNat = 12 ∧
    (hamSyndrome 0x007#12).toNat = 13 ∧ (hamSyndrome 0x201#12).toNat = 15 := by decide

theorem witness_SyndromeIsXorOfPositions : 1 ≤ 1 ∧ 1 ≤ 12 ∧ 12 ≤ 12 := by decide

theorem witness_DoubleErrors : hamSyndrome (hamEncode 0x41#8) = 0#4 ∧ (1 ≤ 1 ∧ 1 < 2 ∧ 2 ≤ 12) ∧ (1 < 12 ∧ 12 ≤ 12) := by decide

/-- A busy machine that holds an access. -/
theorem witness_EveryStepKeepsTheInvariant :
    Inv { running 0x00000801#32 Block.reset [.complete] with held := [access 0x20 .read] } ∧
    ∃ t, step { running 0x00000801#32 Block.reset [.complete] with held := [access 0x20 .read] } = .next t := by
  refine ⟨⟨rfl, sound_of_invalid rfl, ?_, ?_, ?_⟩, _, step_completes ⟨rfl, .inr ⟨[], rfl, rfl⟩⟩⟩
  · unfold HamSound; decide
  · intro h; simp [running] at h
  · intro a ha
    have : a = access 0x20 .read := by simpa using ha
    subst this
    refine ⟨acceptedAt_inWindow (accepted_access _ (by decide) (by decide)), ?_⟩
    rintro ⟨⟨h, -⟩, -⟩
    simp [access] at h

/-- Two machines with different stale tables. -/
theorem witness_StaleTableReachesNothing :
    let s := State.reset
    let t : State := { State.reset with block := { Block.reset with tbl := [(3, 0x05#8)], tblPoly := 0x1FF#9 } }
    SameButStaleTableState s t ∧ ∃ s', step s = .next s' :=
  ⟨⟨⟨rfl, rfl, rfl, fun h => absurd h (by decide)⟩, rfl, rfl, rfl, rfl⟩, _, rfl⟩

/-- A stale table, and a run in which a CRC_TBL_READ arrives. -/
theorem witness_RunsDoNotDependOnResetTable :
    Memory.wf [(3, 0x05#8), (255, 0x01#8)] = true ∧
    ∃ t, Host.Core.run core 1 (arriving (access 0x0C (.write 0x00000004#32))) = .next t :=
  ⟨by decide, _, run_of_step (step_performs (performs_arriving _)) 0⟩

end Sys2Proof.Tests
end

section
/-! PROOF. The invariant of the machine: HAM_RES is a decode or encode result, since the decoder's candidate is a codeword
(42_hamming.md R165, R167); every operation on the block keeps the block's part of the invariant, and every step the bus's. -/

namespace Sys2Proof.Machine

open Sys2Proof.Safety

/-! ### The Hamming codec -/

@[simp] theorem atPos_xor (r e : BitVec 12) (k : Nat) : atPos (r ^^^ e) k = (atPos r k ^^ atPos e k) :=
  BitVec.getLsbD_xor

/-- A nibble of four named bits: the syndrome is one (42_hamming.md R164). -/
def nibble (a b c d : Bool) : BitVec 4 := BitVec.ofBool a ++ BitVec.ofBool b ++ BitVec.ofBool c ++ BitVec.ofBool d

theorem nibble_xor (a b c d a' b' c' d' : Bool) :
    nibble a b c d ^^^ nibble a' b' c' d' = nibble (a ^^ a') (b ^^ b') (c ^^ c') (d ^^ d') := by
  revert a b c d a' b' c' d'
  decide

theorem hamSyndrome_eq_nibble (r : BitVec 12) :
    hamSyndrome r =
      nibble (atPos r 8 ^^ atPos r 9 ^^ atPos r 10 ^^ atPos r 11 ^^ atPos r 12)
        (atPos r 4 ^^ atPos r 5 ^^ atPos r 6 ^^ atPos r 7 ^^ atPos r 12)
        (atPos r 2 ^^ atPos r 3 ^^ atPos r 6 ^^ atPos r 7 ^^ atPos r 10 ^^ atPos r 11)
        (atPos r 1 ^^ atPos r 3 ^^ atPos r 5 ^^ atPos r 7 ^^ atPos r 9 ^^ atPos r 11) := rfl

/-- The syndrome is linear (R165): each of its four bits is a parity. -/
theorem hamSyndrome_xor (r e : BitVec 12) : hamSyndrome (r ^^^ e) = hamSyndrome r ^^^ hamSyndrome e := by
  simp only [hamSyndrome_eq_nibble, nibble_xor, atPos_xor, Bool.xor_assoc, Bool.xor_left_comm (atPos e _) (atPos r _)]

/-- The word with a 1 at position k alone has syndrome k. -/
theorem hamSyndrome_single {k : Nat} (h1 : 1 ≤ k) (h12 : k ≤ 12) :
    hamSyndrome (1#12 <<< (12 - k)) = BitVec.ofNat 4 k := by
  interval_cases k <;> decide

/-- Flipping position k changes the syndrome by k (R165). -/
theorem hamSyndrome_flipPos (r : BitVec 12) {k : Nat} (h1 : 1 ≤ k) (h12 : k ≤ 12) :
    hamSyndrome (flipPos r k) = hamSyndrome r ^^^ BitVec.ofNat 4 k := by
  rw [flipPos, hamSyndrome_xor, hamSyndrome_single h1 h12]

/-- Flipping the position that the syndrome names gives a codeword (R167). -/
theorem hamSyndrome_corrected {r : BitVec 12} (h0 : hamSyndrome r ≠ 0#4) (h12 : (hamSyndrome r).toNat ≤ 12) :
    hamSyndrome (flipPos r (hamSyndrome r).toNat) = 0#4 := by
  have h1 : 1 ≤ (hamSyndrome r).toNat := by
    have : (hamSyndrome r).toNat ≠ 0 := fun h => h0 (BitVec.eq_of_toNat_eq h)
    omega
  rw [hamSyndrome_flipPos r h1 h12, BitVec.ofNat_toNat, BitVec.setWidth_eq, BitVec.xor_self]

theorem hamSyndrome_hamEncode (d : Byte) : hamSyndrome (hamEncode d) = 0#4 := by
  revert d; decide

theorem hamExtract_hamEncode (d : Byte) : hamExtract (hamEncode d) = d := by
  revert d; decide

/-- What the decoder can answer (R166, R167); its re-syndrome check rejects no candidate. -/
theorem hamDecode_cases (r : BitVec 12) :
    (hamSyndrome r = 0#4 ∧ hamDecode r = (r, .ok, 0#4)) ∨
    (12 < (hamSyndrome r).toNat ∧ hamDecode r = (r, .uncorrectable, hamSyndrome r)) ∨
    (hamSyndrome r ≠ 0#4 ∧ (hamSyndrome r).toNat ≤ 12 ∧
      hamDecode r = (flipPos r (hamSyndrome r).toNat, .corrected, hamSyndrome r)) := by
  by_cases h0 : hamSyndrome r = 0#4
  · exact .inl ⟨h0, by simp [hamDecode, h0]⟩
  · by_cases h12 : 12 < (hamSyndrome r).toNat
    · exact .inr (.inl ⟨h12, by simp [hamDecode, h0, h12]⟩)
    · have h12' : (hamSyndrome r).toNat ≤ 12 := by omega
      exact .inr (.inr ⟨h0, h12', by simp [hamDecode, h0, h12, hamSyndrome_corrected h0 h12']⟩)

/-! ### The part of the invariant that speaks of the block -/

/-- The invariant of the block: a canonical table RAM, a sound table and a sound HAM_RES. -/
def BlockInv (b : Block) : Prop := Memory.wf b.tbl = true ∧ TableSound b ∧ HamSound b

theorem inv_iff (s : State) : Safety.Inv s ↔ BlockInv s.block ∧ BusSound s := by
  simp only [Safety.Inv, BlockInv, and_assoc]

@[simp] theorem blockInv_raise (e : Err) (b : Block) : BlockInv (b.raise e) ↔ BlockInv b := .rfl
@[simp] theorem blockInv_accept (b : Block) : BlockInv b.accept ↔ BlockInv b := .rfl
@[simp] theorem blockInv_clearFlags (v : Word) (b : Block) : BlockInv (b.clearFlags v) ↔ BlockInv b := .rfl
@[simp] theorem blockInv_setCrcOut (r : Word) (b : Block) : BlockInv (b.setCrcOut r) ↔ BlockInv b := .rfl
@[simp] theorem blockInv_setVok (v : Bool) (b : Block) : BlockInv (b.setVok v) ↔ BlockInv b := .rfl
@[simp] theorem blockInv_setBusy (v : Bool) (b : Block) : BlockInv (b.setBusy v) ↔ BlockInv b := .rfl
@[simp] theorem blockInv_setTblEn (v : Bool) (b : Block) : BlockInv (b.setTblEn v) ↔ BlockInv b := .rfl
@[simp] theorem blockInv_setPoly (p : BitVec 33) (b : Block) : BlockInv (b.setPoly p) ↔ BlockInv b := .rfl
@[simp] theorem blockInv_setDin (v : BitVec 64) (b : Block) : BlockInv (b.setDin v) ↔ BlockInv b := .rfl
@[simp] theorem blockInv_effectivePoly (b : Block) : BlockInv b.effectivePoly ↔ BlockInv b := .rfl

/-- After a reset no table is valid, and HAM_RES is the codeword of the byte 0 (10_state.md R37). -/
theorem blockInv_reset : BlockInv Block.reset :=
  ⟨rfl, fun hv => absurd hv (by decide), by unfold HamSound; decide⟩

/-- A write of HAM_RES keeps the invariant when what is written is sound. -/
theorem blockInv_setHamRes {b : Block} (h : BlockInv b) {w : BitVec 12} {y : BitVec 4} {o : Outc} {d : Byte}
    (hs : HamSound (b.setHamRes w y o d)) : BlockInv (b.setHamRes w y o d) := by
  obtain ⟨hwf, htbl, -⟩ := h
  exact ⟨hwf, htbl, hs⟩

/-- `ensure_table` for a degree-8 polynomial keeps the invariant (41_crc.md R127). -/
theorem blockInv_ensureTable {b : Block} (h : BlockInv b) {p : BitVec 33} (hd : degree p.toNat = 8) :
    BlockInv (ensureTable p b) := by
  obtain ⟨hwf, htbl, hham⟩ := h
  refine ⟨ensureTable_wf hwf p, HoldsTableOf_sound hd (ensureTable_holds hd hwf htbl), ?_⟩
  rw [ensureTable_eq]
  exact hham

/-- A check keeps what the rejection and the command behind it keep. -/
theorem blockInv_checkLen {n : Nat} {b : Block} {k : Block → Block} (h : BlockInv b)
    (hk : BlockInv (k b)) : BlockInv (checkLen n b k) := by
  unfold checkLen; split <;> assumption

theorem blockInv_checkTable {b : Block} {k : Block → Block} (h : BlockInv b)
    (hk : b.deg = 8 → BlockInv (k b)) : BlockInv (checkTable b k) := by
  by_cases hd : b.deg = 8
  · rw [checkTable_pass hd]; exact hk hd
  · rw [checkTable_fail hd]; exact h

theorem blockInv_checkRange {limit : Nat} {b : Block} {k : Block → Block} (h : BlockInv b)
    (hk : BlockInv (k b)) : BlockInv (checkRange limit b k) := by
  unfold checkRange; split <;> assumption

theorem blockInv_performCrcCompute {b : Block} (h : BlockInv b) (n : Nat) : BlockInv (performCrcCompute n b) := by
  by_cases ht : b.tblEn = true ∧ n = 8 ∧ degree b.poly.toNat = 8
  · obtain ⟨he, rfl, hd⟩ := ht
    rw [performCrcCompute_table he hd, blockInv_setCrcOut]
    exact blockInv_ensureTable h hd
  · rw [performCrcCompute_bitwise ht, blockInv_setCrcOut]
    exact h

theorem blockInv_performHamEncode {b : Block} (h : BlockInv b) : BlockInv (performHamEncode b) :=
  blockInv_setHamRes h ⟨(hamExtract_hamEncode _).symm, by simp, by simp, fun _ => hamSyndrome_hamEncode _⟩

theorem blockInv_performHamDecode {b : Block} (h : BlockInv b) : BlockInv (performHamDecode b) := by
  refine blockInv_setHamRes h ⟨rfl, ?_⟩
  rcases hamDecode_cases (b.din.setWidth 12) with ⟨h0, hr⟩ | ⟨h12, hr⟩ | ⟨h0, h12, hr⟩
  · simp [hr, h0]
  · have h0 : hamSyndrome (b.din.setWidth 12) ≠ 0#4 := fun h => by simp [h] at h12
    simp [hr, h0, h12]
  · simp [hr, h0, h12, hamSyndrome_corrected h0 h12]

/-- Every command keeps the invariant of the block, accepted or rejected. -/
theorem blockInv_commandBlock {b : Block} (h : BlockInv b) (i : Instr) : BlockInv (commandBlock i b) := by
  have he : BlockInv b.effectivePoly := h
  cases i with
  | nop n => exact h
  | crcCompute n =>
    simp only [commandBlock, crcComputeBlock]
    refine blockInv_checkLen h (blockInv_checkRange h ?_)
    exact blockInv_performCrcCompute he n
  | crcVerify n =>
    simp only [commandBlock, crcVerifyBlock]
    exact blockInv_checkLen h (blockInv_checkRange h h)
  | crcTblLoad n =>
    simp only [commandBlock, crcTblLoadBlock]
    exact blockInv_checkTable h fun hd => blockInv_ensureTable he hd
  | crcTblRead n =>
    simp only [commandBlock, crcTblReadBlock]
    exact blockInv_checkTable h fun hd => blockInv_checkRange h (blockInv_ensureTable he hd)
  | hamEncode n =>
    simp only [commandBlock, hamEncodeBlock]
    have hp := blockInv_performHamEncode h
    exact blockInv_checkRange h hp
  | hamDecode n =>
    simp only [commandBlock, hamDecodeBlock]
    have hp := blockInv_performHamDecode h
    exact blockInv_checkRange h hp

theorem blockInv_executeBlock {b : Block} (h : BlockInv b) (c : Word) : BlockInv (executeBlock c b) := by
  unfold executeBlock
  split
  · exact blockInv_commandBlock h _
  · exact h

theorem blockInv_writeReg {b : Block} (h : BlockInv b) (r : Reg) (v : Word) : BlockInv (writeReg r v b) := by
  cases r with
  | ctrl =>
    simp only [writeReg, writeCtrl]
    split
    · exact blockInv_reset
    · exact h
  | _ => exact h

theorem blockInv_performAccess {s : State} (h : BlockInv s.block) (a : Access) :
    BlockInv (performAccess a s).block := by
  rcases performAccess_cases a s with ⟨hb, -⟩ | ⟨off, v, -, -, hb, -⟩
  · rw [hb]; exact h
  · rw [hb]; exact blockInv_writeReg h _ v

/-! ### The part of the invariant that speaks of the bus -/

/-- What a busy block does with an access (20_memory.md R66): it holds it, or it answers it and the block stays as it is. -/
theorem arriveBusy_cases (a : Access) (s : State) :
    (inWindow a ∧ ¬statusRead a ∧ arriveBusy a s = s.setHeld (s.held ++ [a])) ∨
    ((arriveBusy a s).block = s.block ∧ (arriveBusy a s).cmd = s.cmd ∧ (arriveBusy a s).held = s.held) := by
  by_cases hh : isHeld a = true
  · obtain ⟨hw, hs⟩ := (isHeld_iff a).1 hh
    exact .inl ⟨hw, hs, by rw [arriveBusy, if_pos hh]⟩
  · rw [arriveBusy, if_neg hh]
    obtain ⟨_, -, hheld, -⟩ := performAccess_frame a s
    rcases performAccess_cases a s with ⟨hb, hc⟩ | ⟨off, v, ha, ho, -, -⟩
    · exact .inr ⟨hb, hc, hheld⟩
    · refine absurd ((isHeld_iff a).2 ⟨acceptedAt_inWindow ha, fun hs => ?_⟩) hh
      rw [statusRead, ho] at hs
      cases hs.2

/-- Only a write to CMD sets `busy` (R64). -/
theorem writeReg_busy_of_ne_cmd {r : Reg} (hr : r ≠ .cmd) {v : Word} {b : Block} (hb : b.busy = false) :
    (writeReg r v b).busy = false := by
  cases r with
  | cmd => exact absurd rfl hr
  | ctrl =>
    simp only [writeReg, writeCtrl]
    split
    · rfl
    · exact hb
  | _ => exact hb

/-- Performing an access leaves an idle block idle with its command word, unless it is a write to CMD, which makes it busy. -/
theorem performAccess_cmd_of_idle {a : Access} {s : State} (h : (performAccess a s).block.busy = false) :
    (performAccess a s).cmd = s.cmd := by
  rcases performAccess_cases a s with ⟨-, hc⟩ | ⟨off, v, -, -, hb, hc⟩
  · exact hc
  · rw [hc, if_neg]
    intro hr
    rw [hb, hr] at h
    exact absurd h (by simp [writeReg])

/-- The held accesses are ones that R66 holds. -/
theorem busSound_of_sublist {s t : State} (h : BusSound s) (hc : t.block.busy = false → t.cmd = 0#32)
    (hh : t.held.Sublist s.held) : BusSound t :=
  ⟨hc, fun a ha => h.2 a (hh.subset ha)⟩

theorem PerformsNext_held {a : Access} {s s' : State} (h : PerformsNext a s s') : s'.held.Sublist s.held := by
  obtain ⟨-, ⟨as, hh, rfl⟩ | ⟨-, es, -, rfl⟩⟩ := h
  · rw [hh]; exact List.sublist_cons_self _ _
  · exact .refl _

theorem arriveBusy_block (a : Access) (s : State) : (arriveBusy a s).block = s.block := by
  rcases arriveBusy_cases a s with ⟨-, -, heq⟩ | ⟨hblock, -, -⟩
  · rw [heq]; rfl
  · exact hblock

theorem busSound_arriveBusy {s : State} (h : BusSound s) (a : Access) : BusSound (arriveBusy a s) := by
  obtain ⟨hidle, hheld⟩ := id h
  rcases arriveBusy_cases a s with ⟨hw, hns, heq⟩ | ⟨hblock, hcmd, hheld'⟩
  · rw [heq]
    refine ⟨hidle, fun a' ha' => ?_⟩
    rcases List.mem_append.1 ha' with hold | hnew
    · exact hheld a' hold
    · rw [List.mem_singleton.1 hnew]
      exact ⟨hw, hns⟩
  · refine busSound_of_sublist h ?_ (hheld' ▸ .refl _)
    rw [hblock, hcmd]
    exact hidle

theorem busSound_performAccess {a : Access} {s s' : State} (h : BusSound s) (hp : PerformsNext a s s') :
    BusSound (performAccess a s') := by
  obtain ⟨-, hcmd, -⟩ := PerformsNext_frame hp
  obtain ⟨_, -, hheld, -⟩ := performAccess_frame a s'
  refine busSound_of_sublist h (fun hi => ?_) (hheld ▸ PerformsNext_held hp)
  rw [performAccess_cmd_of_idle hi, hcmd]
  exact h.1 hp.1

/-- Every step keeps the invariant of the block and that of the bus. -/
theorem step_keeps_inv {s t : State} (hb : BlockInv s.block) (hs : BusSound s) (h : step s = .next t) :
    BlockInv t.block ∧ BusSound t := by
  rcases step_cases s with ⟨a, s', hp, hst⟩ | ⟨s', hc, hst⟩ | ⟨keep, s', hr, hst⟩ | ⟨a, es, -, -, hst⟩ |
    ⟨-, -, -, hst⟩ | ⟨es, -, -, -, hst⟩ <;> obtain rfl := Host.Outcome.next.inj (h.symm.trans hst)
  case inl =>
    obtain ⟨hblock, -, -⟩ := PerformsNext_frame hp
    exact ⟨blockInv_performAccess (hblock ▸ hb) a, busSound_performAccess hs hp⟩
  case inr.inl =>
    obtain ⟨hblock, -, hheld, -⟩ := CompletesNext_frame hc
    refine ⟨?_, busSound_of_sublist hs (fun _ => rfl) (hheld ▸ .refl _)⟩
    rw [hblock]
    exact blockInv_executeBlock hb s'.cmd
  case inr.inr.inl =>
    obtain ⟨-, es, -, rfl⟩ := hr
    exact ⟨blockInv_reset, busSound_of_sublist hs (fun _ => rfl) (keptHeld_sublist keep s.held)⟩
  case inr.inr.inr.inl =>
    rw [arriveBusy_block]
    exact ⟨hb, busSound_arriveBusy (s := { s with events := es }) hs a⟩
  case inr.inr.inr.inr.inl => exact ⟨hb, hs⟩
  case inr.inr.inr.inr.inr => exact ⟨hb, hs⟩

end Sys2Proof.Machine

namespace Sys2Proof.Proofs

open Sys2Proof.Machine Sys2Proof.Safety

/-- Settles O58: the block's part of the invariant and the bus's part are kept by each of the six things a step can do. -/
theorem everyStepKeepsTheInvariant : Obligations.EveryStepKeepsTheInvariant := by
  intro s t hs h
  rw [inv_iff] at hs ⊢
  exact step_keeps_inv hs.1 hs.2 h

/-- Settles O57. -/
theorem resetMeetsTheInvariant : Obligations.ResetMeetsTheInvariant :=
  (inv_iff _).2 ⟨blockInv_reset, fun _ => rfl, fun _ ha => absurd ha List.not_mem_nil⟩

end Sys2Proof.Proofs
end

section
/-! PROOF. A table that is not valid, and its tag, reach nothing (10_state.md R31, 41_crc.md R127): every operation on the
block, and then every step and every run, keeps two machines alike that differ at most there. -/

namespace Sys2Proof.Machine

open Sys2Proof.Safety

/-! ### Blocks that differ at most in a table that is not valid -/

/-- An update that neither reads nor writes the table, its tag and its validity. -/
def IgnoresTable (f : Block → Block) : Prop :=
  ∀ b, withoutTable (f b) = f (withoutTable b) ∧ (f b).tbl = b.tbl ∧ (f b).tblPoly = b.tblPoly ∧
    (f b).tblValid = b.tblValid

theorem ignoresTable_raise (e : Err) : IgnoresTable (Block.raise e) := fun _ => ⟨rfl, rfl, rfl, rfl⟩
theorem ignoresTable_accept : IgnoresTable Block.accept := fun _ => ⟨rfl, rfl, rfl, rfl⟩
theorem ignoresTable_effectivePoly : IgnoresTable Block.effectivePoly := fun _ => ⟨rfl, rfl, rfl, rfl⟩
theorem ignoresTable_setBusy (v : Bool) : IgnoresTable (Block.setBusy v) := fun _ => ⟨rfl, rfl, rfl, rfl⟩
theorem ignoresTable_setTblEn (v : Bool) : IgnoresTable (Block.setTblEn v) := fun _ => ⟨rfl, rfl, rfl, rfl⟩
theorem ignoresTable_performCrcVerify (n : Nat) : IgnoresTable (performCrcVerify n) := fun _ => ⟨rfl, rfl, rfl, rfl⟩
theorem ignoresTable_performHamEncode : IgnoresTable performHamEncode := fun _ => ⟨rfl, rfl, rfl, rfl⟩
theorem ignoresTable_performHamDecode : IgnoresTable performHamDecode := fun _ => ⟨rfl, rfl, rfl, rfl⟩

/-- No read sees a table that is not valid, nor its tag: STATUS.TBL_VALID is 0 then (10_state.md R33). -/
theorem readReg_withoutTable (r : Reg) {b : Block} (hv : ¬b.tblValid = true) :
    readReg r (withoutTable b) = readReg r b := by
  cases r with
  | status => simp [readReg, Block.status, Block.tblValidBit, withoutTable, hv]
  | _ => rfl

theorem same_refl {b : Block} (h : Memory.wf b.tbl = true) : SameButStaleTable b b :=
  ⟨h, h, rfl, fun _ => ⟨rfl, rfl⟩⟩

section
variable {b c : Block} (h : SameButStaleTable b c)
include h

theorem same_wf : Memory.wf b.tbl = true ∧ Memory.wf c.tbl = true := by
  obtain ⟨hwfb, hwfc, -, -⟩ := h
  exact ⟨hwfb, hwfc⟩

theorem same_map {f : Block → Block} (hf : IgnoresTable f) : SameButStaleTable (f b) (f c) := by
  obtain ⟨hwfb, hwfc, heq, hvalid⟩ := h
  obtain ⟨hb, hbt, hbp, hbv⟩ := hf b
  obtain ⟨hc, hct, hcp, -⟩ := hf c
  refine ⟨hbt ▸ hwfb, hct ▸ hwfc, by rw [hb, hc, heq], ?_⟩
  rw [hbt, hbp, hct, hcp, hbv]
  exact hvalid

/-- What is read from the block without its table and tag is the same. -/
theorem same_field {α : Type} {g : Block → α} (hg : ∀ b, g (withoutTable b) = g b) : g b = g c := by
  obtain ⟨-, -, heq, -⟩ := h
  rw [← hg b, ← hg c, heq]

/-- With a valid table they are equal. -/
theorem same_eq_of_valid (hv : b.tblValid = true) : b = c := by
  obtain ⟨-, -, heq, hvalid⟩ := h
  obtain ⟨ht, hp⟩ := hvalid hv
  cases b; cases c
  simp_all [withoutTable]

/-- `ensure_table` leaves nothing of the difference: a table that is not valid is built afresh (41_crc.md R127). -/
theorem same_ensureTable_eq (p : BitVec 33) : ensureTable p b = ensureTable p c := by
  by_cases hv : b.tblValid = true
  · rw [same_eq_of_valid h hv]
  · have hvc : ¬c.tblValid = true := by rwa [← same_field h (g := Block.tblValid) fun _ => rfl]
    rw [ensureTable_miss fun hh => hv hh.1, ensureTable_miss fun hh => hvc hh.1]
    obtain ⟨hwfb, hwfc, heq, -⟩ := h
    calc buildTable p b
        = (withoutTable b).setTable (buildCells p.toNat b.tbl) (p.setWidth 9) := rfl
      _ = (withoutTable c).setTable (buildCells p.toNat c.tbl) (p.setWidth 9) := by
          rw [heq, buildCells_eq hwfb hwfc]
      _ = buildTable p c := rfl

theorem same_ensureTable (p : BitVec 33) : SameButStaleTable (ensureTable p b) (ensureTable p c) := by
  rw [← same_ensureTable_eq h p]
  exact same_refl (ensureTable_wf (same_wf h).1 p)

/-! ### Reads and writes of registers -/

theorem same_readReg (r : Reg) : readReg r b = readReg r c := by
  by_cases hv : b.tblValid = true
  · rw [same_eq_of_valid h hv]
  · have hvc : ¬c.tblValid = true := by rwa [← same_field h (g := Block.tblValid) fun _ => rfl]
    obtain ⟨-, -, heq, -⟩ := h
    rw [← readReg_withoutTable r hv, ← readReg_withoutTable r hvc, heq]

theorem same_writeReg (r : Reg) (v : Word) : SameButStaleTable (writeReg r v b) (writeReg r v c) := by
  cases r with
  | ctrl =>
    simp only [writeReg, writeCtrl]
    split
    · exact same_refl rfl
    · exact same_map h (ignoresTable_setTblEn _)
  | _ => exact same_map h fun _ => ⟨rfl, rfl, rfl, rfl⟩

/-! ### Commands -/

theorem same_checkLen {n : Nat} {k : Block → Block} (hk : SameButStaleTable (k b) (k c)) :
    SameButStaleTable (checkLen n b k) (checkLen n c k) := by
  unfold checkLen
  split
  · exact hk
  · exact same_map h (ignoresTable_raise _)

theorem same_checkTable {k : Block → Block} (hk : SameButStaleTable (k b) (k c)) :
    SameButStaleTable (checkTable b k) (checkTable c k) := by
  unfold checkTable
  rw [same_field h (g := Block.deg) fun _ => rfl]
  split
  · exact hk
  · exact same_map h (ignoresTable_raise _)

theorem same_checkRange {limit : Nat} {k : Block → Block} (hk : SameButStaleTable (k b) (k c)) :
    SameButStaleTable (checkRange limit b k) (checkRange limit c k) := by
  unfold checkRange
  rw [same_field h (g := Block.din) fun _ => rfl]
  split
  · exact hk
  · exact same_map h (ignoresTable_raise _)

theorem same_setCrcOut (r : Word) : SameButStaleTable (b.setCrcOut r) (c.setCrcOut r) :=
  same_map h fun _ => ⟨rfl, rfl, rfl, rfl⟩

theorem same_performCrcCompute (n : Nat) : SameButStaleTable (performCrcCompute n b) (performCrcCompute n c) := by
  have hpoly : b.poly = c.poly := same_field h fun _ => rfl
  have hdin : b.din = c.din := same_field h fun _ => rfl
  have hen : b.tblEn = c.tblEn := same_field h fun _ => rfl
  simp only [performCrcCompute, hpoly, hdin, hen, same_ensureTable_eq h]
  split
  · exact same_setCrcOut (same_refl (ensureTable_wf (same_wf h).2 _)) _
  · exact same_setCrcOut h _

theorem same_performCrcTblRead : SameButStaleTable (performCrcTblRead b) (performCrcTblRead c) := by
  have hpoly : b.poly = c.poly := same_field h fun _ => rfl
  simp only [performCrcTblRead, hpoly, same_ensureTable_eq h]
  exact same_setCrcOut (same_refl (ensureTable_wf (same_wf h).2 _)) _

/-- No command lets a table that is not valid reach anything. -/
theorem same_commandBlock (i : Instr) : SameButStaleTable (commandBlock i b) (commandBlock i c) := by
  have he := same_map h ignoresTable_effectivePoly
  cases i with
  | nop n => exact same_map h ignoresTable_accept
  | crcCompute n =>
    exact same_checkLen h (same_checkRange he (same_map (same_performCrcCompute he n) ignoresTable_accept))
  | crcVerify n =>
    simp only [commandBlock, crcVerifyBlock]
    refine same_checkLen h ?_
    rw [same_field he (g := Block.deg) fun _ => rfl]
    exact same_checkRange he (same_map (same_map he (ignoresTable_performCrcVerify n)) ignoresTable_accept)
  | crcTblLoad n =>
    have hpoly : b.effectivePoly.poly = c.effectivePoly.poly := same_field he fun _ => rfl
    refine same_checkTable he (same_map ?_ ignoresTable_accept)
    rw [hpoly]
    exact same_ensureTable he _
  | crcTblRead n =>
    exact same_checkTable he (same_checkRange he (same_map (same_performCrcTblRead he) ignoresTable_accept))
  | hamEncode n => exact same_checkRange h (same_map (same_map h ignoresTable_performHamEncode) ignoresTable_accept)
  | hamDecode n => exact same_checkRange h (same_map (same_map h ignoresTable_performHamDecode) ignoresTable_accept)

theorem same_executeBlock (w : Word) : SameButStaleTable (executeBlock w b) (executeBlock w c) := by
  unfold executeBlock
  split
  · exact same_commandBlock h _
  · exact same_map h (ignoresTable_raise _)

end

/-! ### Machines -/

/-- Every step answers a next state (60_exceptions.md R202). -/
theorem step_eq_next (s : State) : ∃ t, step s = .next t := by
  rcases step_cases s with ⟨_, _, _, h⟩ | ⟨_, _, h⟩ | ⟨_, _, _, h⟩ | ⟨_, _, _, _, h⟩ | ⟨_, _, _, h⟩ | ⟨_, _, _, _, h⟩ <;>
    exact ⟨_, h⟩

/-- An idle block with nothing to do stays as it is. -/
theorem step_rests {s : State} (hb : s.block.busy = false) (hh : s.held = []) (he : s.events = []) :
    step s = .next s := by
  simp only [step, nextState, hb, idleNext, hh, he]; rfl

/-- A `complete` that comes while idle has no effect (log 3). -/
theorem step_drops_complete {s : State} {es : List Event} (hb : s.block.busy = false) (hh : s.held = [])
    (he : s.events = .complete :: es) : step s = .next (s.setEvents es) := by
  simp only [step, nextState, hb, idleNext, hh, he]; rfl

section
variable {s t : State} (h : SameButStaleTableState s t)
include h

theorem sameState_busy : s.block.busy = t.block.busy := same_field h.1 fun _ => rfl

theorem sameState_frame : s.cmd = t.cmd ∧ s.held = t.held ∧ s.events = t.events := by
  obtain ⟨-, hcmd, hheld, hevents, -⟩ := h
  exact ⟨hcmd, hheld, hevents⟩

theorem sameState_setBlock {b c : Block} (hbc : SameButStaleTable b c) :
    SameButStaleTableState (s.setBlock b) (t.setBlock c) := ⟨hbc, h.2⟩

theorem sameState_setCmd (w : Word) : SameButStaleTableState (s.setCmd w) (t.setCmd w) := by
  obtain ⟨hblock, -, hheld, hevents, hanswers⟩ := h
  exact ⟨hblock, rfl, hheld, hevents, hanswers⟩

theorem sameState_setHeld (l : List Access) : SameButStaleTableState (s.setHeld l) (t.setHeld l) := by
  obtain ⟨hblock, hcmd, -, hevents, hanswers⟩ := h
  exact ⟨hblock, hcmd, rfl, hevents, hanswers⟩

theorem sameState_setEvents (es : List Event) : SameButStaleTableState (s.setEvents es) (t.setEvents es) := by
  obtain ⟨hblock, hcmd, hheld, -, hanswers⟩ := h
  exact ⟨hblock, hcmd, hheld, rfl, hanswers⟩

theorem sameState_reply (a : Access) (r : Answer) : SameButStaleTableState (s.reply a r) (t.reply a r) := by
  obtain ⟨hblock, hcmd, hheld, hevents, hanswers⟩ := h
  exact ⟨hblock, hcmd, hheld, hevents, congrArg ((a, r) :: ·) hanswers⟩

theorem sameState_performAccess (a : Access) : SameButStaleTableState (performAccess a s) (performAccess a t) := by
  unfold performAccess
  split
  · exact sameState_reply h a _
  · exact sameState_reply h a _
  · rename_i r _
    cases ho : a.op with
    | read =>
      rw [performReg_read ho, performReg_read ho, same_readReg h.1]
      exact sameState_reply h a _
    | write v =>
      rw [performReg_write ho, performReg_write ho, (sameState_frame h).1]
      exact sameState_reply (sameState_setCmd (sameState_setBlock h (same_writeReg h.1 r v)) _) a _

theorem sameState_arriveBusy (a : Access) : SameButStaleTableState (arriveBusy a s) (arriveBusy a t) := by
  obtain ⟨-, hheld, -⟩ := sameState_frame h
  unfold arriveBusy
  split
  · rw [hheld]
    exact sameState_setHeld h _
  · exact sameState_performAccess h a

theorem sameState_hardwareReset (keep : List Bool) :
    SameButStaleTableState (hardwareReset keep s) (hardwareReset keep t) := by
  obtain ⟨-, hheld, -⟩ := sameState_frame h
  rw [hardwareReset, hardwareReset, hheld]
  exact sameState_setHeld (sameState_setCmd (sameState_setBlock h (same_refl rfl)) _) _

theorem sameState_performsNext {a : Access} {s' : State} (hp : PerformsNext a s s') :
    ∃ t', PerformsNext a t t' ∧ SameButStaleTableState s' t' := by
  have hbusy := sameState_busy h
  obtain ⟨-, hheld, hevents⟩ := sameState_frame h
  obtain ⟨hb, ⟨as, hh, rfl⟩ | ⟨hh, es, he, rfl⟩⟩ := hp
  · exact ⟨_, ⟨hbusy ▸ hb, .inl ⟨as, hheld ▸ hh, rfl⟩⟩, sameState_setHeld h as⟩
  · exact ⟨_, ⟨hbusy ▸ hb, .inr ⟨hheld ▸ hh, es, hevents ▸ he, rfl⟩⟩, sameState_setEvents h es⟩

theorem sameState_completesNext {s' : State} (hc : CompletesNext s s') :
    ∃ t', CompletesNext t t' ∧ SameButStaleTableState s' t' := by
  have hbusy := sameState_busy h
  obtain ⟨-, -, hevents⟩ := sameState_frame h
  obtain ⟨hb, ⟨he, rfl⟩ | ⟨es, he, rfl⟩⟩ := hc
  · exact ⟨t, ⟨hbusy ▸ hb, .inl ⟨hevents ▸ he, rfl⟩⟩, h⟩
  · exact ⟨_, ⟨hbusy ▸ hb, .inr ⟨es, hevents ▸ he, rfl⟩⟩, sameState_setEvents h es⟩

theorem sameState_resetsNext {keep : List Bool} {s' : State} (hr : ResetsNext keep s s') :
    ∃ t', ResetsNext keep t t' ∧ SameButStaleTableState s' t' := by
  have hbusy := sameState_busy h
  obtain ⟨-, hheld, hevents⟩ := sameState_frame h
  obtain ⟨hb, es, he, rfl⟩ := hr
  exact ⟨_, ⟨hbusy ▸ hheld ▸ hb, es, hevents ▸ he, rfl⟩, sameState_setEvents h es⟩

/-- Two machines that differ at most in a table that is not valid step alike. -/
theorem sameState_step {s' : State} (hs : step s = .next s') :
    ∃ t', step t = .next t' ∧ SameButStaleTableState s' t' := by
  have hbusy := sameState_busy h
  obtain ⟨-, hheld, hevents⟩ := sameState_frame h
  rcases step_cases s with ⟨a, s1, hp, hst⟩ | ⟨s1, hc, hst⟩ | ⟨keep, s1, hr, hst⟩ | ⟨a, es, hb, he, hst⟩ |
    ⟨hb, hh, he, hst⟩ | ⟨es, hb, hh, he, hst⟩ <;> obtain rfl := Host.Outcome.next.inj (hs.symm.trans hst)
  case inl =>
    obtain ⟨t1, hpt, h1⟩ := sameState_performsNext h hp
    exact ⟨_, step_performs hpt, sameState_performAccess h1 a⟩
  case inr.inl =>
    obtain ⟨t1, hct, h1⟩ := sameState_completesNext h hc
    have hexec := same_executeBlock h1.1 s1.cmd
    refine ⟨_, step_completes hct, ?_⟩
    rw [← (sameState_frame h1).1]
    exact sameState_setCmd (sameState_setBlock h1 (same_map hexec (ignoresTable_setBusy false))) 0#32
  case inr.inr.inl =>
    obtain ⟨t1, hrt, h1⟩ := sameState_resetsNext h hr
    exact ⟨_, step_resets hrt, sameState_hardwareReset h1 keep⟩
  case inr.inr.inr.inl =>
    exact ⟨_, step_arrives (hbusy ▸ hb) (hevents ▸ he), sameState_arriveBusy (sameState_setEvents h es) a⟩
  case inr.inr.inr.inr.inl =>
    exact ⟨t, step_rests (hbusy ▸ hb) (hheld ▸ hh) (hevents ▸ he), h⟩
  case inr.inr.inr.inr.inr =>
    exact ⟨_, step_drops_complete (hbusy ▸ hb) (hheld ▸ hh) (hevents ▸ he), sameState_setEvents h es⟩

end

/-! ### Runs -/

/-- A run of one step more makes a step first. -/
theorem run_succ_next {k : Nat} {s t : State} (h : Host.Core.run core (k + 1) s = .next t) :
    ∃ s1, step s = .next s1 ∧ Host.Core.run core k s1 = .next t := by
  obtain ⟨s1, hs⟩ := step_eq_next s
  exact ⟨s1, hs, by rwa [run_of_step hs] at h⟩

theorem sameState_run (k : Nat) {s t s' : State} (h : SameButStaleTableState s t)
    (hs : Host.Core.run core k s = .next s') :
    ∃ t', Host.Core.run core k t = .next t' ∧ SameButStaleTableState s' t' := by
  induction k generalizing s t with
  | zero =>
    obtain rfl := Host.Outcome.next.inj hs
    exact ⟨t, rfl, h⟩
  | succ k ih =>
    obtain ⟨s1, hstep, hrun⟩ := run_succ_next hs
    obtain ⟨t1, htstep, h1⟩ := sameState_step h hstep
    rw [run_of_step htstep]
    exact ih h1 hrun

end Sys2Proof.Machine

namespace Sys2Proof.Proofs

open Sys2Proof.Machine Sys2Proof.Safety

/-- Settles O59: each of the six things a step can do keeps two machines alike; `ensure_table` builds the table afresh where
it is not valid. -/
theorem staleTableReachesNothing : Obligations.StaleTableReachesNothing :=
  fun _ _ _ h hs => sameState_step h hs

/-- Settles O60, from O59's lemma by induction on the number of steps: after a reset no table is valid. -/
theorem runsDoNotDependOnResetTable : Obligations.RunsDoNotDependOnResetTable := by
  intro m p es k t hm hrun
  have hreset : SameButStaleTableState { State.reset with events := es }
      { State.reset with events := es, block := { State.reset.block with tbl := m, tblPoly := p } } :=
    ⟨⟨rfl, hm, rfl, fun hv => absurd hv Bool.false_ne_true⟩, rfl, rfl, rfl, rfl⟩
  obtain ⟨t', hrun', -, -, hheld, -, hanswers⟩ := sameState_run k hreset hrun
  exact ⟨t', hrun', hanswers.symm, hheld.symm⟩

end Sys2Proof.Proofs
end

section
/-! PROOF. The registers (10_state.md R21 to R30, R33, R36 to R38): the bits of the words read, what STATUS.TBL_VALID says of
`poly` and the tag, and an accepted access to an idle block in one step. -/

namespace Sys2Proof.Machine

open Sys2Proof.Safety

/-! ### Reads of registers, bit by bit -/

/-- The bits of STATUS (10_state.md R23). -/
def Block.statusBit (b : Block) : Nat → Bool
  | 0 => b.busy
  | 1 => b.vok
  | 2 => b.tblValidBit
  | 3 => b.lastErr
  | 8 => b.errCmd
  | 9 => b.errLen
  | 10 => b.errTbl
  | 11 => b.errRange
  | 12 => b.warnPoly
  | _ => false

theorem statusBit_reserved (b : Block) {j : Nat} (h : (4 ≤ j ∧ j ≤ 7) ∨ 13 ≤ j) : b.statusBit j = false := by
  rcases h with ⟨h4, h7⟩ | h13
  · interval_cases j <;> rfl
  · obtain ⟨k, rfl⟩ := Nat.exists_eq_add_of_le' h13
    rfl

theorem status_getLsbD (b : Block) (j : Nat) : b.status.getLsbD j = b.statusBit j := by
  simp only [Block.status, BitVec.getLsbD_append]
  by_cases hj : j < 13
  · interval_cases j <;> simp [Block.statusBit]
  · rw [statusBit_reserved b (.inr (by omega))]
    iterate 10 rw [if_neg (by omega)]
    exact BitVec.getLsbD_zero

/-- One bit as a 32-bit word. -/
theorem setWidth_bit (x : BitVec 1) : x.setWidth 32 = if x.getLsbD 0 then 1#32 else 0#32 := by
  revert x; decide

theorem bit_eq_zero_iff (x : BitVec 1) : x = 0#1 ↔ x.getLsbD 0 = false := by
  revert x; decide

theorem hamRes_word (b : Block) : b.hamRes.extractLsb' 0 12 = b.hamWord := BitVec.extractLsb'_append_eq_right

theorem hamRes_synd (b : Block) : b.hamRes.extractLsb' 12 4 = b.hamSynd :=
  (BitVec.extractLsb'_append_eq_of_le (by decide)).trans BitVec.extractLsb'_append_eq_right

/-- HAM_RES above SYND. -/
theorem hamRes_above (b : Block) (i n : Nat) :
    b.hamRes.extractLsb' (16 + i) n = (b.hamData ++ 0#6 ++ b.hamOutc.code).extractLsb' i n := by
  refine (BitVec.extractLsb'_append_eq_of_le (by omega)).trans ((BitVec.extractLsb'_append_eq_of_le (by omega)).trans ?_)
  congr 1
  omega

theorem hamRes_outc (b : Block) : b.hamRes.extractLsb' 16 2 = b.hamOutc.code :=
  (hamRes_above b 0 2).trans BitVec.extractLsb'_append_eq_right

theorem hamRes_reserved (b : Block) : b.hamRes.extractLsb' 18 6 = 0#6 :=
  (hamRes_above b 2 6).trans ((BitVec.extractLsb'_append_eq_of_le (by decide)).trans BitVec.extractLsb'_append_eq_right)

theorem hamRes_data (b : Block) : b.hamRes.extractLsb' 24 8 = b.hamData :=
  (hamRes_above b 8 8).trans ((BitVec.extractLsb'_append_eq_of_le (by decide)).trans BitVec.extractLsb'_append_eq_left)

/-! ### STATUS.TBL_VALID (R33) -/

theorem tblValidBit_iff (b : Block) : b.tblValidBit = true ↔ b.tblValid = true ∧ b.tblPoly.setWidth 33 = b.poly := by
  simp [Block.tblValidBit]

/-- Where TBL_VALID reads 1, it reads 1 under another polynomial just when that is the same polynomial. -/
theorem tblValidBit_setPoly {b : Block} (h : b.tblValidBit = true) (p : BitVec 33) :
    (b.setPoly p).tblValidBit = decide (b.poly = p) := by
  obtain ⟨hv, ht⟩ := (tblValidBit_iff b).1 h
  simp [Block.tblValidBit, hv, ht]

/-- A polynomial register is its two halves (R25, R26). -/
theorem poly_halves (p : BitVec 33) : p.extractLsb' 32 1 ++ p.extractLsb' 0 32 = p :=
  BitVec.extractLsb'_append_extractLsb' (w := 1) (len := 32)

/-- A tag has nine bits, so that the polynomial it stands for has POLY_HI 0 (R32). -/
theorem polyHi_of_tag (q : BitVec 9) : (q.setWidth 33).extractLsb' 32 1 = 0#1 := by
  apply BitVec.eq_of_getLsbD_eq
  intro j hj
  rw [BitVec.getLsbD_extractLsb', BitVec.getLsbD_setWidth, BitVec.getLsbD_of_ge q (32 + j) (by omega)]
  simp

theorem bit_append_poly_iff (x : BitVec 1) {p : BitVec 33} (hp : p.extractLsb' 32 1 = 0#1) :
    p = x ++ p.extractLsb' 0 32 ↔ x = 0#1 := by
  rw [← hp]
  constructor
  · intro h
    rw [h]
    exact BitVec.extractLsb'_append_eq_left.symm
  · rintro rfl
    exact (poly_halves p).symm

/-! ### Accesses to registers -/

/-- An accepted read on an idle block, in one step (20_memory.md R63). -/
theorem step_read {a : Access} {s s' : State} {off : Nat} (h : PerformsNext a s s') (ha : acceptedAt off a)
    (ho : a.op = .read) :
    step s = .next { s' with answers := (a, .data (readReg (regAt off) s.block)) :: s.answers } := by
  obtain ⟨hb, -, hans⟩ := PerformsNext_frame h
  rw [step_performs h, performAccess_accepted ha, performReg_read ho, State.reply, hb, hans]

/-- An accepted write on an idle block, in one step, to any register but CMD (R64). -/
theorem step_write {a : Access} {s s' : State} {off : Nat} {v : Word} (h : PerformsNext a s s')
    (ha : acceptedAt off a) (ho : a.op = .write v) (hr : regAt off ≠ .cmd) :
    step s = .next { s' with block := writeReg (regAt off) v s.block, answers := (a, .done) :: s.answers } := by
  obtain ⟨hb, -, hans⟩ := PerformsNext_frame h
  rw [step_performs h, performAccess_accepted ha, performReg_write ho, if_neg hr, State.reply, hb]
  simp only [State.setCmd_answers, State.setBlock_answers, hans]
  rfl

/-- The registers from offset 0x28 on are the reserved ones (10_state.md R36). -/
theorem regAt_reserved {off : Nat} (h28 : 0x28 ≤ off) (h40 : off < 0x40) : ∃ k, regAt off = .reserved k := by
  interval_cases off <;> exact ⟨_, rfl⟩

/-- The registers whose writes are ignored: ID, and from offset 0x20 on. -/
theorem writeReg_ignored {off : Nat} (h4 : off % 4 = 0) (h40 : off < 0x40) (h : off = 0x00 ∨ 0x20 ≤ off) (v : Word)
    (b : Block) : writeReg (regAt off) v b = b ∧ regAt off ≠ .cmd := by
  by_cases h28 : 0x28 ≤ off
  · obtain ⟨k, hk⟩ := regAt_reserved h28 h40
    rw [hk]
    exact ⟨rfl, Reg.noConfusion⟩
  · have : off = 0x00 ∨ off = 0x20 ∨ off = 0x24 := by omega
    rcases this with rfl | rfl | rfl <;> exact ⟨rfl, by decide⟩

end Sys2Proof.Machine

namespace Sys2Proof.Proofs

open Sys2Proof.Machine Sys2Proof.Safety

/-- Settles O9: where TBL_VALID reads 1, `poly` is the tag, so after a write it reads 1 just when the write leaves `poly`. -/
theorem tblValidIsTheTagCompare : Obligations.TblValidIsTheTagCompare := by
  intro b
  have hbit : ∀ c : Block, (readReg .status c).getLsbD 2 = c.tblValidBit := fun c => status_getLsbD c 2
  simp only [hbit]
  refine ⟨tblValidBit_iff b, fun h v => ?_⟩
  have hhi : b.poly.extractLsb' 32 1 = 0#1 := by rw [← ((tblValidBit_iff b).1 h).2]; exact polyHi_of_tag _
  refine ⟨fun hv => ?_, ?_, ?_, ?_⟩
  · rw [writeReg, tblValidBit_setPoly h, decide_eq_false_iff_not]
    intro hp
    rw [hp] at hv
    exact hv BitVec.extractLsb'_append_eq_right.symm
  · refine (tblValidBit_setPoly h _).trans (decide_eq_true ?_)
    rw [writeReg, Block.setPoly_poly, BitVec.extractLsb'_append_eq_left, poly_halves]
  · rw [writeReg, tblValidBit_setPoly h, Bool.eq_iff_iff, decide_eq_true_iff, bit_append_poly_iff _ hhi, bit_eq_zero_iff,
      BitVec.getLsbD_extractLsb']
    simp
  · refine (tblValidBit_setPoly h _).trans (decide_eq_true ?_)
    rw [writeReg, Block.setPoly_poly, BitVec.extractLsb'_append_eq_right]
    exact (bit_append_poly_iff _ hhi).2 rfl

/-- Settles O15. -/
theorem ignoredWrites : Obligations.IgnoredWrites := by
  intro a s s' off h ha
  obtain ⟨-, -, h4, h40⟩ := id ha
  constructor
  · intro v ho hoff
    obtain ⟨hw, hr⟩ := writeReg_ignored h4 h40 hoff v s.block
    obtain ⟨hb, -, -⟩ := PerformsNext_frame h
    rw [step_write h ha ho hr, hw, ← hb]
  · intro ho h28
    obtain ⟨k, hk⟩ := regAt_reserved h28 h40
    rw [step_read h ha ho, hk]
    rfl

/-- Settles O5. -/
theorem resetValues : Obligations.ResetValues := by
  unfold Obligations.ResetValues
  decide

/-- Settles O6. -/
theorem registerMapOffsets : Obligations.RegisterMapOffsets :=
  ⟨⟨rfl, rfl, rfl, rfl, rfl, rfl, rfl, rfl, rfl, rfl, fun _ => rfl⟩,
    ⟨rfl, rfl, rfl, rfl, rfl, rfl, rfl, rfl, rfl, rfl, fun k => regAt_of_offset (.reserved k)⟩,
    fun r => ⟨offset_mod r, offset_lt r, regAt_of_offset r⟩, fun _ h4 h40 => regAt_offset h4 h40⟩

/-- Settles O7. -/
theorem registerReadValues : Obligations.RegisterReadValues := by
  intro b
  refine ⟨rfl, ?_, rfl, BitVec.setWidth_eq_extractLsb' (by decide), ?_, BitVec.setWidth_eq_extractLsb' (by decide), rfl,
    rfl, fun _ => rfl⟩
  · cases h : b.tblEn <;> simp [readReg, h]
  · rw [readReg, setWidth_bit, BitVec.getLsbD_extractLsb']
    simp

/-- Settles O8. -/
theorem statusBitPlaces : Obligations.StatusBitPlaces := by
  intro b
  exact ⟨status_getLsbD b 0, status_getLsbD b 1, status_getLsbD b 3, status_getLsbD b 8, status_getLsbD b 9,
    status_getLsbD b 10, status_getLsbD b 11, status_getLsbD b 12,
    fun j hj => (status_getLsbD b j).trans (statusBit_reserved b hj)⟩

/-- Settles O10. -/
theorem hamResFieldPlaces : Obligations.HamResFieldPlaces := by
  intro b
  have houtc := hamRes_outc b
  exact ⟨hamRes_word b, hamRes_synd b, hamRes_reserved b, hamRes_data b, fun h => by rw [h] at houtc; exact houtc,
    fun h => by rw [h] at houtc; exact houtc, fun h => by rw [h] at houtc; exact houtc⟩

/-- Settles O14. -/
theorem operandRegisterWrites : Obligations.OperandRegisterWrites :=
  fun _ _ _ _ h ho =>
    ⟨fun ha => step_write h ha ho (by decide), fun ha => step_write h ha ho (by decide),
      fun ha => step_write h ha ho (by decide), fun ha => step_write h ha ho (by decide)⟩

/-- Settles O16. -/
theorem statusWriteClearsWrittenOnes : Obligations.StatusWriteClearsWrittenOnes := by
  intro a s s' v h ha ho
  refine ⟨s.block.clearFlags v, step_write h ha ho (by decide), ?_, ?_, ?_, ?_, ?_, rfl⟩ <;> simp

/-- Settles O17. -/
theorem ctrlWriteSetsTblEn : Obligations.CtrlWriteSetsTblEn := by
  intro a s s' v h ha ho hsrst
  have hw : writeReg (regAt 0x04) v s.block = s.block.setTblEn (v.getLsbD 0) :=
    if_neg (by rw [hsrst]; exact Bool.false_ne_true)
  rw [step_write h ha ho (by decide), hw]
  rfl

end Sys2Proof.Proofs
end

section
/-! PROOF. The bus (20_memory.md R60 to R67): what an access gets that reaches no register, what the busy block does
with one, which access makes an idle block busy, and where the accesses of the machine stand after a step. -/

namespace Sys2Proof.Machine

open Sys2Proof.Safety

/-! ### What an idle block answers -/

theorem performAccess_outside {a : Access} (h : ¬inWindow a) (s : State) :
    performAccess a s = s.reply a (.fault .outsideWindow) := by
  rw [performAccess, target_outside h]; rfl

theorem performAccess_bad {a : Access} (h : inWindow a) (hb : a.bytes ≠ 4 ∨ a.addr % 4 ≠ 0) (s : State) :
    performAccess a s = s.reply a (.fault .busError) := by
  rw [performAccess, target_bad h hb]

/-- An access to a register is answered without a fault. -/
theorem performReg_answers (a : Access) (r : Reg) (s : State) :
    ∃ w, (performReg a r s).answers = (a, w) :: s.answers ∧ ∀ f, w ≠ .fault f := by
  cases ho : a.op with
  | read => exact ⟨_, by rw [performReg_read ho]; rfl, fun _ => Answer.noConfusion⟩
  | write v => exact ⟨.done, by rw [performReg_write ho]; rfl, fun _ => Answer.noConfusion⟩

/-- An access that an idle block only answers, in one step. -/
theorem step_replies {a : Access} {s s' : State} {w : Answer} (h : PerformsNext a s s')
    (hp : performAccess a s' = s'.reply a w) : step s = .next { s' with answers := (a, w) :: s.answers } := by
  obtain ⟨-, -, hans⟩ := PerformsNext_frame h
  rw [step_performs h, hp, State.reply, hans]

/-! ### What a busy block does with an access (R66) -/

theorem arriveBusy_holds {a : Access} (hw : inWindow a) (hs : ¬statusRead a) (s : State) :
    arriveBusy a s = s.setHeld (s.held ++ [a]) := by
  rw [arriveBusy, if_pos ((isHeld_iff a).2 ⟨hw, hs⟩)]

theorem arriveBusy_performs {a : Access} (h : ¬(inWindow a ∧ ¬statusRead a)) (s : State) :
    arriveBusy a s = performAccess a s := by
  rw [arriveBusy, if_neg (mt (isHeld_iff a).1 h)]

theorem arriveBusy_statusRead {a : Access} (h : statusRead a) (s : State) :
    arriveBusy a s = s.reply a (.data s.block.status) := by
  obtain ⟨ha, ho⟩ := id h
  rw [arriveBusy_performs fun hn => hn.2 h, performAccess_accepted ha, performReg_read ho]
  rfl

theorem arriveBusy_cmd (a : Access) (s : State) : (arriveBusy a s).cmd = s.cmd := by
  rcases arriveBusy_cases a s with ⟨-, -, heq⟩ | ⟨-, hcmd, -⟩
  · rw [heq]; rfl
  · exact hcmd

/-- Only bit 0 of STATUS shows `busy` (10_state.md R23). -/
theorem statusBit_setBusy (b : Block) (v : Bool) {j : Nat} (hj : 1 ≤ j) :
    (b.setBusy v).statusBit j = b.statusBit j := by
  by_cases h13 : 13 ≤ j
  · rw [statusBit_reserved _ (.inr h13), statusBit_reserved _ (.inr h13)]
  · interval_cases j <;> rfl

/-! ### The start of a command (R64) -/

/-- The one offset of CMD (10_state.md R38). -/
theorem acceptedAt_cmd {off : Nat} {a : Access} (h : acceptedAt off a) (hr : regAt off = .cmd) : acceptedAt 0x0C a := by
  obtain ⟨-, -, h4, h40⟩ := id h
  have hoff : off = 0x0C := by rw [← regAt_offset h4 h40, hr]; rfl
  exact hoff ▸ h

/-- Only a write to CMD makes an idle block busy when performed. -/
theorem cmdWrite_of_performAccess_busy {a : Access} {s : State} (hidle : s.block.busy = false)
    (h : (performAccess a s).block.busy = true) : acceptedAt 0x0C a ∧ ∃ c, a.op = .write c := by
  rcases performAccess_cases a s with ⟨hb, -⟩ | ⟨off, c, ha, ho, hb, -⟩
  · rw [hb, hidle] at h
    cases h
  · have hr : regAt off = .cmd := by
      by_contra hne
      rw [hb, writeReg_busy_of_ne_cmd hne hidle] at h
      cases h
    exact ⟨acceptedAt_cmd ha hr, c, ho⟩

/-- A write to CMD, performed: it sets `busy` and keeps the word written (40_command.md R100). -/
theorem performAccess_cmdWrite {a : Access} {c : Word} (ha : acceptedAt 0x0C a) (ho : a.op = .write c) (s : State) :
    performAccess a s =
      { s with block := { s.block with busy := true }, cmd := c, answers := (a, .done) :: s.answers } := by
  rw [performAccess_accepted ha, performReg_write ho]
  rfl

/-- A step that ends with the block busy performed an access, or let one reach the busy block. -/
theorem step_cases_of_busy {s t : State} (h : step s = .next t) (hbusy : t.block.busy = true) :
    (∃ a s', PerformsNext a s s' ∧ t = performAccess a s') ∨
    (∃ a es, s.block.busy = true ∧ t = arriveBusy a { s with events := es }) := by
  rcases step_cases s with ⟨a, s', hp, hst⟩ | ⟨s', -, hst⟩ | ⟨keep, s', -, hst⟩ | ⟨a, es, hb, -, hst⟩ |
    ⟨hidle, -, -, hst⟩ | ⟨es, hidle, -, -, hst⟩ <;> obtain rfl := Host.Outcome.next.inj (h.symm.trans hst)
  case inl => exact .inl ⟨a, s', hp, rfl⟩
  case inr.inl => exact absurd hbusy Bool.false_ne_true
  case inr.inr.inl => exact absurd hbusy Bool.false_ne_true
  case inr.inr.inr.inl => exact .inr ⟨a, es, hb, rfl⟩
  case inr.inr.inr.inr.inl => exact absurd (hidle.symm.trans hbusy) Bool.false_ne_true
  case inr.inr.inr.inr.inr => exact absurd (hidle.symm.trans hbusy) Bool.false_ne_true

/-! ### Where the accesses stand (R66, R67) -/

/-- Performing an access adds it behind those answered. -/
theorem accessesOf_performAccess (a : Access) (s : State) :
    accessesOf (performAccess a s) =
      (s.answers.map Prod.fst).reverse ++ a :: (s.held ++ s.events.filterMap arriving) := by
  obtain ⟨w, hans, hheld, hevents⟩ := performAccess_frame a s
  simp [accessesOf, hans, hheld, hevents]

/-- The access an idle block performs next stands right behind those answered. -/
theorem accessesOf_performsNext {a : Access} {s s' : State} (h : PerformsNext a s s') :
    accessesOf s = (s'.answers.map Prod.fst).reverse ++ a :: (s'.held ++ s'.events.filterMap arriving) := by
  obtain ⟨-, ⟨as, hh, rfl⟩ | ⟨hh, es, he, rfl⟩⟩ := h
  · simp [accessesOf, hh]
  · simp [accessesOf, hh, he, arriving]

/-- The completion of a command brings no access. -/
theorem accessesOf_complete {s : State} {es : List Event} (he : s.events = .complete :: es) :
    accessesOf { s with events := es } = accessesOf s := by
  rw [accessesOf, accessesOf, he]
  rfl

theorem accessesOf_completesNext {s s' : State} (h : CompletesNext s s') : accessesOf s' = accessesOf s := by
  obtain ⟨-, ⟨-, rfl⟩ | ⟨es, he, rfl⟩⟩ := h
  · rfl
  · exact accessesOf_complete he

/-- The busy block holds the access that arrives behind those held, or answers it before them. -/
theorem accessesOf_arriveBusy (a : Access) {s : State} {es : List Event} (he : s.events = .access a :: es) :
    (accessesOf (arriveBusy a { s with events := es })).Perm (accessesOf s) := by
  by_cases h : inWindow a ∧ ¬statusRead a
  · rw [arriveBusy_holds h.1 h.2]
    simp [accessesOf, he, arriving]
  · rw [arriveBusy_performs h, accessesOf_performAccess, accessesOf, he, List.append_assoc]
    exact List.perm_middle.symm.append_left _

end Sys2Proof.Machine

namespace Sys2Proof.Proofs

open Sys2Proof.Machine Sys2Proof.Safety

/-- Settles O11. -/
theorem busErrorHasNoEffect : Obligations.BusErrorHasNoEffect := by
  intro a s s' h
  refine ⟨fun hw hb => step_replies h (performAccess_bad hw hb s'), fun off ha => ?_⟩
  obtain ⟨-, -, hans⟩ := PerformsNext_frame h
  obtain ⟨w, hw, hf⟩ := performReg_answers a (regAt off) s'
  exact ⟨_, w, by rw [step_performs h, performAccess_accepted ha], hans ▸ hw, hf⟩

/-- Settles O13: the first read leaves the block, so the second one reads the same register of the same block. -/
theorem readsHaveNoSideEffects : Obligations.ReadsHaveNoSideEffects := by
  intro a s s' off h ha ho
  have hread := step_read h ha ho
  refine ⟨hread, fun a' t t' ht h' ha' ho' => ?_⟩
  obtain rfl := Host.Outcome.next.inj (ht.symm.trans hread)
  obtain ⟨hblock, -, -⟩ := PerformsNext_frame h
  rw [step_read h' ha' ho', hblock]

/-- Settles O19: from an idle block, a step that ends busy performed an access, and only a write to CMD sets `busy`. -/
theorem onlyCmdWritesStartCommands : Obligations.OnlyCmdWritesStartCommands := by
  intro s t hidle hstep hbusy
  rcases step_cases_of_busy hstep hbusy with ⟨a, s', hp, rfl⟩ | ⟨a, es, hb, -⟩
  case inr => exact absurd (hidle.symm.trans hb) Bool.false_ne_true
  obtain ⟨hblock, -, hans⟩ := PerformsNext_frame hp
  obtain ⟨ha, c, ho⟩ := cmdWrite_of_performAccess_busy (hblock ▸ hidle) hbusy
  exact ⟨a, s', c, hp, ha, ho, by rw [performAccess_cmdWrite ha ho, hblock, hans]⟩

/-- Settles O20: from a busy block, a step that ends busy let an access reach it, which the block holds, or answers
without a change. -/
theorem busyBlockHoldsAccesses : Obligations.BusyBlockHoldsAccesses := by
  refine ⟨fun s a es hb he => ⟨fun hw hs => ?_, fun hs => ⟨s.block.status, ?_, ?_, fun j hj => ?_⟩⟩,
    fun s t hb hstep hbusy => ?_, fun s a as hb hh => ?_⟩
  · rw [step_arrives hb he, arriveBusy_holds hw hs]; rfl
  · rw [step_arrives hb he, arriveBusy_statusRead hs]; rfl
  · exact (status_getLsbD _ 0).trans hb
  · rw [status_getLsbD, ← statusBit_setBusy s.block false hj]
    exact (status_getLsbD _ j).symm
  · rcases step_cases_of_busy hstep hbusy with ⟨a, s', hp, -⟩ | ⟨a, es, -, rfl⟩
    · exact absurd (hp.1.symm.trans hb) Bool.false_ne_true
    · exact ⟨arriveBusy_block a _, arriveBusy_cmd a _⟩
  · obtain ⟨w, hans, hheld, hevents⟩ := performAccess_frame a { s with held := as }
    exact ⟨_, w, step_performs ⟨hb, .inl ⟨as, hh, rfl⟩⟩, hheld, hevents, hans⟩

/-- Settles O21: a performed access moves to the end of those answered, an arriving one to the end of those held, and one
that the busy block does not hold overtakes those held. -/
theorem noAccessIsLost : Obligations.NoAccessIsLost := by
  intro s t hstep hreset
  rcases step_cases s with ⟨a, s', hp, hst⟩ | ⟨s', hc, hst⟩ | ⟨keep, s', hr, -⟩ | ⟨a, es, -, he, hst⟩ |
    ⟨-, -, -, hst⟩ | ⟨es, -, -, he, hst⟩
  case inr.inr.inl =>
    obtain ⟨hb, es, he, -⟩ := hr
    obtain ⟨hidle, hheld⟩ := hreset keep es he
    rcases hb with hbusy | hnil
    · exact absurd (hidle.symm.trans hbusy) Bool.false_ne_true
    · exact absurd hnil hheld
  all_goals obtain rfl := Host.Outcome.next.inj (hstep.symm.trans hst)
  case inl => exact .of_eq ((accessesOf_performAccess a s').trans (accessesOf_performsNext hp).symm)
  case inr.inl =>
    have hacc := accessesOf_completesNext hc
    exact .of_eq hacc
  case inr.inr.inr.inl => exact accessesOf_arriveBusy a he
  case inr.inr.inr.inr.inl => exact .refl _
  case inr.inr.inr.inr.inr => exact .of_eq (accessesOf_complete he)

/-- Settles O12. -/
theorem outsideWindowHasNoEffect : Obligations.OutsideWindowHasNoEffect := by
  intro a s hw
  refine ⟨fun s' h => step_replies h (performAccess_outside hw s'), fun es hb he => ?_⟩
  rw [step_arrives hb he, arriveBusy_performs fun hn => hw hn.1, performAccess_outside hw]
  rfl

end Sys2Proof.Proofs
end

section
/-! PROOF. The encoding of a command word (30_encoding.md): what a word decodes to, in terms of its four fields
(`decode_eq_ok_iff`) and of `legal(c)` (`decode_isOk_iff_legalWord`); and the rejections of R85 and of the data length and
the operand of CRC_COMPUTE and CRC_VERIFY (R83, 40_command.md R101 steps 2 and 5). -/

namespace Sys2Proof

open Sys2Proof.Safety

/-! ### Decoding by fields -/

/-- The opcode map and its inverse (R82): `instrOfOp_spec` as an equivalence. -/
theorem instrOfOp_eq_some_iff {o : BitVec 4} {n : Nat} {i : Instr} :
    instrOfOp o.toNat n = some i ↔ i.op = o ∧ i.dlen = n := by
  refine ⟨instrOfOp_spec, ?_⟩
  rintro ⟨rfl, rfl⟩
  cases i <;> rfl

/-- R81, R82: a word decodes to a command just when its reserved fields are 0 and its OP and DLEN are the command's. -/
theorem decode_eq_ok_iff {c : Word} {i : Instr} :
    decode c = .ok i ↔ (rsv0Field c = 0#4 ∧ rsv1Field c = 0#18) ∧ i.op = opField c ∧ i.dlen = (dlenField c).toNat := by
  rw [← instrOfOp_eq_some_iff, decode]
  by_cases h0 : rsv0Field c = 0#4
  · by_cases h1 : rsv1Field c = 0#18
    · cases hi : instrOfOp (opField c).toNat (dlenField c).toNat <;> simp [h0, h1]
    · simp [h0, h1]
  · simp [h0]

/-! ### The fields of an encoded command -/

@[simp] theorem opField_encode (i : Instr) : opField (encode i) = i.op := BitVec.extractLsb'_append_eq_right

@[simp] theorem rsv0Field_encode (i : Instr) : rsv0Field (encode i) = 0#4 := by
  rw [rsv0Field, encode, BitVec.extractLsb'_append_eq_of_le (by omega)]
  exact BitVec.extractLsb'_append_eq_right

@[simp] theorem dlenField_encode (i : Instr) : dlenField (encode i) = BitVec.ofNat 6 i.dlen := by
  rw [dlenField, encode, BitVec.extractLsb'_append_eq_of_le (by omega), BitVec.extractLsb'_append_eq_of_le (by omega)]
  exact BitVec.extractLsb'_append_eq_right

@[simp] theorem rsv1Field_encode (i : Instr) : rsv1Field (encode i) = 0#18 := by
  rw [rsv1Field, encode, BitVec.extractLsb'_append_eq_of_le (by omega), BitVec.extractLsb'_append_eq_of_le (by omega)]
  exact BitVec.extractLsb'_append_eq_left

/-! ### Legal words -/

/-- `legal(c)` of R87 in terms of the fields of R81. -/
theorem legalWord_iff (c : Word) :
    legalWord c = true ↔
      (rsv0Field c = 0#4 ∧ rsv1Field c = 0#18) ∧ (opField c).toNat ∈ [0x0, 0x1, 0x2, 0x3, 0x4, 0x8, 0x9] := by
  simp only [legalWord, Bool.and_eq_true, decide_eq_true_eq, reservedBits_iff, List.mem_cons, List.not_mem_nil,
    ← BitVec.toNat_inj (x := c &&& 0xF#32), opBits_toNat, BitVec.toNat_ofNat, Nat.reducePow, Nat.reduceMod]

/-- R87: the words that decode are the legal ones. -/
theorem decode_isOk_iff_legalWord (c : Word) : (∃ i, decode c = .ok i) ↔ legalWord c = true := by
  simp only [decode_eq_ok_iff, legalWord_iff, ← instrOfOp_isSome_iff _ (dlenField c).toNat, instrOfOp_eq_some_iff,
    exists_and_left]

theorem decode_error_of_illegal {c : Word} (h : legalWord c = false) : ∃ e, decode c = .error e := by
  cases hd : decode c with
  | error e => exact ⟨e, rfl⟩
  | ok i => exact absurd ((decode_isOk_iff_legalWord c).1 ⟨i, hd⟩) (by simp [h])

end Sys2Proof

namespace Sys2Proof.Machine

open Sys2Proof.Safety

/-! ### Rejections -/

theorem raise_cmd_eq (b : Block) : b.raise .cmd = { b with errCmd := true, lastErr := true } := by simp [Block.raise]

theorem raise_len_eq (b : Block) : b.raise .len = { b with errLen := true, lastErr := true } := by simp [Block.raise]

theorem raise_range_eq (b : Block) : b.raise .range = { b with errRange := true, lastErr := true } := by simp [Block.raise]

/-- No command sets ERR_CMD (R85): it stands for an illegal word alone. -/
theorem commandBlock_errCmd (i : Instr) (b : Block) : (commandBlock i b).errCmd = b.errCmd := by
  have hpoly : (afterPoly i b).errCmd = b.errCmd := by unfold afterPoly; split <;> rfl
  rcases commandBlock_cases i b with ⟨h, -⟩ | ⟨e, he, h, -⟩ | ⟨h, -⟩ <;> rw [h]
  · simp
  · rcases he with rfl | rfl <;> simp [hpoly]
  · obtain ⟨-, -, -, -, hcmd, -⟩ := performBlock_frame i (afterPoly i b)
    rw [Block.accept_errCmd, hcmd, hpoly]

theorem execute_of_illegal {s : State} (h : legalWord s.cmd = false) :
    execute s = .next { s with block := s.block.raise .cmd } := by
  obtain ⟨e, hd⟩ := decode_error_of_illegal h
  rw [execute_eq, executeBlock, hd]

theorem execute_of_legal {s : State} (h : legalWord s.cmd = true) :
    ∃ i, execute s = .next { s with block := commandBlock i s.block } := by
  obtain ⟨i, hd⟩ := (decode_isOk_iff_legalWord s.cmd).2 h
  exact ⟨i, by rw [execute_eq, executeBlock, hd]⟩

/-- A rejection by step 5 of R101 keeps the fallback of step 3. -/
theorem effectivePoly_raise_range (b : Block) :
    b.effectivePoly.raise .range =
      { b with poly := usedPoly b, warnPoly := warnAfter b, errRange := true, lastErr := true } := by
  rw [effectivePoly_eq, raise_range_eq]

theorem crcComputeBlock_out_of_range {n : Nat} {b : Block} (hn : 1 ≤ n ∧ n ≤ 32) (hd : 2 ^ n ≤ b.din.toNat) :
    crcComputeBlock n b = b.effectivePoly.raise .range := by
  have hlim : computeLimit n < b.effectivePoly.din.toNat := (Nat.sub_lt (by positivity) one_pos).trans_le hd
  rw [crcComputeBlock, checkLen_pass hn, checkRange_fail hlim]

theorem crcVerifyBlock_out_of_range {n : Nat} {b : Block} (hn : 1 ≤ n ∧ n ≤ 32)
    (hd : 2 ^ (n + degree (usedPoly b).toNat) ≤ b.din.toNat) :
    crcVerifyBlock n b = b.effectivePoly.raise .range := by
  have hlim : verifyLimit n b.effectivePoly.deg < b.effectivePoly.din.toNat := by
    rw [effectivePoly_deg_eq]
    exact (Nat.sub_lt (by positivity) one_pos).trans_le hd
  rw [crcVerifyBlock, checkLen_pass hn, checkRange_fail hlim]

end Sys2Proof.Machine

namespace Sys2Proof.Proofs

open Sys2Proof.Machine Sys2Proof.Safety

/-- Settles O1: each field of the encoded word is the command's, and DLEN fits its six bits. -/
theorem decodeOfEncodeIsIdentity : Obligations.DecodeOfEncodeIsIdentity := by
  intro i hwf
  have hlt : i.dlen < 64 := of_decide_eq_true hwf
  exact decode_eq_ok_iff.2 (by simp [Nat.mod_eq_of_lt hlt])

/-- Settles O2: the command has the fields of the word, and a word is its fields. -/
theorem encodeOfDecodeIsIdentity : Obligations.EncodeOfDecodeIsIdentity := by
  intro c i h
  obtain ⟨⟨h0, h1⟩, hop, hdlen⟩ := decode_eq_ok_iff.1 h
  refine ⟨decide_eq_true (hdlen ▸ (dlenField c).isLt), ?_⟩
  rw [word_eq_fields c, encode, h0, h1, hop, hdlen, BitVec.ofNat_toNat, BitVec.setWidth_eq]

/-- Settles O3: the legal words are those that decode, and the command has the fields of the word. -/
theorem everyWordIsOneCommandOrIllegal : Obligations.EveryWordIsOneCommandOrIllegal := by
  refine fun c => ⟨fun hlegal => ?_, decode_error_of_illegal⟩
  obtain ⟨i, hi⟩ := (decode_isOk_iff_legalWord c).2 hlegal
  exact ⟨i, hi, (decode_eq_ok_iff.1 hi).2⟩

/-- Settles O26: an illegal word does not decode, and no command sets ERR_CMD. -/
theorem illegalWordIsRejected : Obligations.IllegalWordIsRejected := by
  refine fun s => ⟨fun hill => ?_, fun hlegal => ?_⟩
  · rw [execute_of_illegal hill, raise_cmd_eq]
  · obtain ⟨i, hi⟩ := execute_of_legal hlegal
    exact ⟨_, hi, commandBlock_errCmd i s.block⟩

/-- Settles O36: the length is checked on the block as it stands, the operand after the fallback. -/
theorem crcOperandChecks : Obligations.CrcOperandChecks := by
  intro n s
  simp only [exec_eq_next, commandBlock]
  refine ⟨fun hlen => ?_, fun h1 h32 hd => ?_, fun h1 h32 hd => ?_⟩
  · have hn : ¬(1 ≤ n ∧ n ≤ 32) := by omega
    simp only [crcComputeBlock, crcVerifyBlock, checkLen_fail hn, raise_len_eq, and_self]
  · rw [crcComputeBlock_out_of_range ⟨h1, h32⟩ hd, effectivePoly_raise_range]
  · rw [crcVerifyBlock_out_of_range ⟨h1, h32⟩ hd, effectivePoly_raise_range]

/-- Settles O4: ten fixed words, decoded by evaluation. -/
theorem sampleWordsDecode : Obligations.SampleWordsDecode := by
  unfold Obligations.SampleWordsDecode
  decide

end Sys2Proof.Proofs
end

section
/-! PROOF. Running a command (40_command.md R100 to R107): the machine's decode and dispatch do what R101 writes on the raw
word (`executeBlock_eq_executeR101`); an executed word is a rejection by one error or an accepted command
(`executeBlock_cases`); and the two families commute with any change of the other family's state (R107). -/

namespace Sys2Proof.Machine

open Sys2Proof.Safety

/-! ### R101 on the raw word -/

theorem executeBlock_of_ok {c : Word} {i : Instr} (h : decode c = .ok i) (b : Block) :
    executeBlock c b = commandBlock i b := by
  rw [executeBlock, h]

theorem executeBlock_of_error {c : Word} {e : Illegal} (h : decode c = .error e) (b : Block) :
    executeBlock c b = b.raise .cmd := by
  rw [executeBlock, h]

/-- Step 2 of R101 as it writes it, the failing test first. -/
theorem checkLen_eq_ite (n : Nat) (b : Block) (k : Block → Block) :
    checkLen n b k = if ¬(1 ≤ n ∧ n ≤ 32) then b.raise .len else k b := (ite_not ..).symm

/-- Step 4 of R101, the failing test first. -/
theorem checkTable_eq_ite (b : Block) (k : Block → Block) :
    checkTable b k = if b.deg ≠ 8 then b.raise .tbl else k b := (ite_not ..).symm

/-- Step 5 of R101, the failing test first, for an opcode that has a limit. -/
theorem checkRange_eq_ite {op n limit : Nat} {b : Block} (h : limitR101 op n b.deg = some limit) (k : Block → Block) :
    checkRange limit b k = if overLimit op n b = true then b.raise .range else k b := by
  have hover : overLimit op n b = true ↔ ¬b.din.toNat ≤ limit := by simp [overLimit, h]
  simp only [checkRange, hover, ite_not]

/-- An illegal word fails step 1 of R101. -/
theorem executeR101_of_illegal {c : Word} (h : legalWord c = false) (b : Block) : executeR101 c b = b.raise .cmd := by
  have hstep1 : c &&& 0xFFFFC0F0#32 ≠ 0#32 ∨ (c &&& 0xF#32).toNat ∉ [0x0, 0x1, 0x2, 0x3, 0x4, 0x8, 0x9] := by
    rw [← Decidable.not_and_iff_not_or_not, reservedBits_iff, opBits_toNat, ← legalWord_iff, h]
    exact Bool.false_ne_true
  exact if_pos hstep1

/-- A command has the checks that R101 writes for its opcode, in that order. -/
theorem executeR101_of_ok {c : Word} {i : Instr} (h : decode c = .ok i) (b : Block) :
    executeR101 c b = commandBlock i b := by
  obtain ⟨hrsv, hop, hdlen⟩ := decode_eq_ok_iff.1 h
  simp only [executeR101, opBits_toNat, dlenBits_toNat, (reservedBits_iff c).2 hrsv, ← hop, ← hdlen]
  cases i with
  | nop n => rfl
  | crcCompute n =>
    rw [commandBlock, crcComputeBlock, checkLen_eq_ite, checkRange_eq_ite (op := 0x1) (n := n) rfl]
    simp [Instr.op, Instr.dlen, performR101]
  | crcVerify n =>
    rw [commandBlock, crcVerifyBlock, checkLen_eq_ite, checkRange_eq_ite (op := 0x2) (n := n) rfl]
    simp [Instr.op, Instr.dlen, performR101]
  | crcTblLoad n =>
    rw [commandBlock, crcTblLoadBlock, checkTable_eq_ite]
    simp [Instr.op, overLimit, limitR101, performR101]
  | crcTblRead n =>
    rw [commandBlock, crcTblReadBlock, checkTable_eq_ite, checkRange_eq_ite (op := 0x4) (n := n) rfl]
    simp [Instr.op, Instr.dlen, performR101]
  | hamEncode n =>
    rw [commandBlock, hamEncodeBlock, checkRange_eq_ite (op := 0x8) (n := n) rfl]
    simp [Instr.op, Instr.dlen, performR101]
  | hamDecode n =>
    rw [commandBlock, hamDecodeBlock, checkRange_eq_ite (op := 0x9) (n := n) rfl]
    simp [Instr.op, Instr.dlen, performR101]

/-- R101: decoding a word and dispatching its command does what R101 writes on the raw word. -/
theorem executeBlock_eq_executeR101 (c : Word) (b : Block) : executeBlock c b = executeR101 c b := by
  cases hlegal : legalWord c with
  | true =>
    obtain ⟨i, hi⟩ := (decode_isOk_iff_legalWord c).2 hlegal
    rw [executeBlock_of_ok hi, executeR101_of_ok hi]
  | false =>
    obtain ⟨e, he⟩ := decode_error_of_illegal hlegal
    rw [executeBlock_of_error he, executeR101_of_illegal hlegal]

/-! ### Rejected and accepted words -/

/-- Step 3 of R101 leaves the block, or replaces a polynomial below 2 (41_crc.md R121). -/
theorem afterPoly_cases (i : Instr) (b : Block) :
    afterPoly i b = b ∨
      (b.poly.toNat < 2 ∧ afterPoly i b = { b with poly := 0x107#33, warnPoly := true }) := by
  unfold afterPoly
  split
  · by_cases hp : b.poly.toNat < 2
    · exact .inr ⟨hp, by simp [Block.effectivePoly, hp, Config.defaultPoly]⟩
    · exact .inl (effectivePoly_of_valid (Nat.le_of_not_lt hp))
  · exact .inl rfl

/-- What executing a word does: a rejection by one error, on the block as it was or, at steps 4 and 5, after a fallback
(R102); or the operation of a command and LAST_ERR cleared (R103). -/
theorem executeBlock_cases (c : Word) (b : Block) :
    (∃ (e : Err) (b' : Block),
      (b' = b ∨
        ((e = .tbl ∨ e = .range) ∧ b.poly.toNat < 2 ∧ b' = { b with poly := 0x107#33, warnPoly := true })) ∧
      executeBlock c b = b'.raise e) ∨
    ∃ i, executeBlock c b = (performBlock i (afterPoly i b)).accept := by
  cases hd : decode c with
  | error e => exact .inl ⟨.cmd, b, .inl rfl, executeBlock_of_error hd b⟩
  | ok i =>
    rw [executeBlock_of_ok hd]
    rcases commandBlock_cases i b with ⟨hrej, -⟩ | ⟨e, he, hrej, -⟩ | ⟨hacc, -⟩
    · exact .inl ⟨.len, b, .inl rfl, hrej⟩
    · exact .inl ⟨e, afterPoly i b, (afterPoly_cases i b).imp_right fun hf => ⟨he, hf⟩, hrej⟩
    · exact .inr ⟨i, hacc⟩

/-! ### What a command commutes with (R107) -/

/-- The state of the CRC family: the polynomial, CRC_OUT, VOK and the table. -/
def Block.setCrcState (p : BitVec 33) (r : Word) (v : Bool) (m : Memory) (q : BitVec 9) (u : Bool) (b : Block) : Block :=
  { b with poly := p, crcOut := r, vok := v, tbl := m, tblPoly := q, tblValid := u }

section Checks

/-! A change of the block that a rejection and the command behind a check commute with, and that leaves what the check
looks at. -/

variable {f k : Block → Block} {b : Block}

theorem checkLen_commute (n : Nat) (hr : Function.Commute f (Block.raise .len)) (hk : f (k b) = k (f b)) :
    f (checkLen n b k) = checkLen n (f b) k := by
  rw [checkLen, checkLen, apply_ite f, hk, hr b]

theorem checkTable_commute (hr : Function.Commute f (Block.raise .tbl)) (hd : (f b).deg = b.deg) (hk : f (k b) = k (f b)) :
    f (checkTable b k) = checkTable (f b) k := by
  rw [checkTable, checkTable, apply_ite f, hk, hr b, hd]

theorem checkRange_commute (limit : Nat) (hr : Function.Commute f (Block.raise .range)) (hd : (f b).din = b.din)
    (hk : f (k b) = k (f b)) : f (checkRange limit b k) = checkRange limit (f b) k := by
  rw [checkRange, checkRange, apply_ite f, hk, hr b, hd]

end Checks

section CrcIgnoresHamRes

variable (w : BitVec 12) (y : BitVec 4) (o : Outc) (d : Byte)

theorem setTable_setHamRes (m : Memory) (q : BitVec 9) (b : Block) :
    (b.setTable m q).setHamRes w y o d = (b.setHamRes w y o d).setTable m q := rfl

theorem ensureTable_setHamRes (p : BitVec 33) (b : Block) :
    (ensureTable p b).setHamRes w y o d = ensureTable p (b.setHamRes w y o d) := by
  by_cases h : b.tblValid = true ∧ b.tblPoly.setWidth 33 = p
  · rw [ensureTable_hit h, ensureTable_hit (b := b.setHamRes w y o d) h]
  · rw [ensureTable_miss h, ensureTable_miss (b := b.setHamRes w y o d) h, buildTable, buildTable, setTable_setHamRes,
      Block.setHamRes_tbl]

theorem performCrcTblRead_setHamRes (b : Block) :
    (performCrcTblRead b).setHamRes w y o d = performCrcTblRead (b.setHamRes w y o d) := by
  simp only [performCrcTblRead, Block.setHamRes_poly, ← ensureTable_setHamRes]
  rfl

theorem performCrcCompute_setHamRes (n : Nat) (b : Block) :
    (performCrcCompute n b).setHamRes w y o d = performCrcCompute n (b.setHamRes w y o d) := by
  by_cases ht : b.tblEn = true ∧ n = 8 ∧ degree b.poly.toNat = 8
  · obtain ⟨he, rfl, hd⟩ := ht
    rw [performCrcCompute_table he hd, performCrcCompute_table (b := b.setHamRes w y o d) he hd, Block.setHamRes_poly,
      ← ensureTable_setHamRes]
    rfl
  · rw [performCrcCompute_bitwise ht, performCrcCompute_bitwise (b := b.setHamRes w y o d) ht]
    rfl

/-- A CRC command gives the same result whatever HAM_RES holds. -/
theorem commandBlock_setHamRes {i : Instr} (hi : i.op.toNat ∈ [1, 2, 3, 4]) (b : Block) :
    (commandBlock i b).setHamRes w y o d = commandBlock i (b.setHamRes w y o d) := by
  have hr : ∀ e, Function.Commute (Block.setHamRes w y o d) (Block.raise e) := fun _ _ => rfl
  cases i with
  | crcCompute n =>
    refine checkLen_commute n (hr _) (checkRange_commute _ (hr _) rfl ?_)
    exact congrArg Block.accept (performCrcCompute_setHamRes w y o d n _)
  | crcVerify n => exact checkLen_commute n (hr _) (checkRange_commute _ (hr _) rfl rfl)
  | crcTblLoad n => exact checkTable_commute (hr _) rfl (congrArg Block.accept (ensureTable_setHamRes w y o d _ _))
  | crcTblRead n =>
    refine checkTable_commute (hr _) rfl (checkRange_commute _ (hr _) rfl ?_)
    exact congrArg Block.accept (performCrcTblRead_setHamRes w y o d _)
  | nop n | hamEncode n | hamDecode n => simp [Instr.op] at hi

end CrcIgnoresHamRes

/-- A Hamming command gives the same result whatever the CRC state holds. -/
theorem commandBlock_setCrcState {i : Instr} (hi : i.op.toNat ∈ [8, 9]) (p : BitVec 33) (r : Word) (v : Bool)
    (m : Memory) (q : BitVec 9) (u : Bool) (b : Block) :
    (commandBlock i b).setCrcState p r v m q u = commandBlock i (b.setCrcState p r v m q u) := by
  have hr : Function.Commute (Block.setCrcState p r v m q u) (Block.raise .range) := fun _ => rfl
  cases i with
  | hamEncode n | hamDecode n => exact checkRange_commute _ hr rfl rfl
  | nop n | crcCompute n | crcVerify n | crcTblLoad n | crcTblRead n => simp [Instr.op] at hi

/-- A CRC command leaves HAM_RES: it commutes with writing there what stands there. -/
theorem commandBlock_keeps_hamRes {i : Instr} (hi : i.op.toNat ∈ [1, 2, 3, 4]) (b : Block) :
    (commandBlock i b).hamWord = b.hamWord ∧ (commandBlock i b).hamSynd = b.hamSynd ∧
      (commandBlock i b).hamOutc = b.hamOutc ∧ (commandBlock i b).hamData = b.hamData := by
  have hself : (commandBlock i b).setHamRes b.hamWord b.hamSynd b.hamOutc b.hamData = commandBlock i b :=
    commandBlock_setHamRes b.hamWord b.hamSynd b.hamOutc b.hamData hi b
  rw [← hself]
  exact ⟨rfl, rfl, rfl, rfl⟩

/-- A Hamming command leaves the CRC state: it commutes with writing there what stands there. -/
theorem commandBlock_keeps_crcState {i : Instr} (hi : i.op.toNat ∈ [8, 9]) (b : Block) :
    (commandBlock i b).poly = b.poly ∧ (commandBlock i b).crcOut = b.crcOut ∧ (commandBlock i b).vok = b.vok ∧
      (commandBlock i b).tbl = b.tbl ∧ (commandBlock i b).tblPoly = b.tblPoly ∧
      (commandBlock i b).tblValid = b.tblValid := by
  have hself : (commandBlock i b).setCrcState b.poly b.crcOut b.vok b.tbl b.tblPoly b.tblValid = commandBlock i b :=
    commandBlock_setCrcState hi b.poly b.crcOut b.vok b.tbl b.tblPoly b.tblValid b
  rw [← hself]
  exact ⟨rfl, rfl, rfl, rfl, rfl, rfl⟩

/-- `exec` on a machine with another block. -/
theorem exec_of_block (i : Instr) (s : State) {b c : Block} (h : commandBlock i b = c) :
    exec i { s with block := b } = .next { s with block := c } := by
  rw [exec_eq_next, h]

end Sys2Proof.Machine

namespace Sys2Proof.Proofs

open Sys2Proof.Machine Sys2Proof.Safety

/-- Settles O25. -/
theorem executeIsR101 : Obligations.ExecuteIsR101 := by
  intro s
  rw [execute_eq, executeBlock_eq_executeR101]

/-- Settles O24: the CMD write keeps its word and sets `busy`; the completion executes that word on the block left. -/
theorem cmdWriteRunsItsWord : Obligations.CmdWriteRunsItsWord := by
  intro a s s' c h ha ho
  obtain ⟨hblock, -, hans⟩ := PerformsNext_frame h
  refine ⟨_, rfl, by rw [step_performs h, performAccess_cmdWrite ha ho, hblock, hans], fun s2 hc => ?_⟩
  obtain ⟨hblock2, hcmd2, -, -⟩ := CompletesNext_frame hc
  rw [step_completes hc, executeBlock_eq_executeR101, hblock2, hcmd2]

/-- Settles O30: an accepted word leaves LAST_ERR = 0, so the word was rejected. -/
theorem rejectionIsPrecise : Obligations.RejectionIsPrecise := by
  intro s t h hlast
  obtain rfl := Host.Outcome.next.inj (h.symm.trans (execute_eq s))
  rcases executeBlock_cases s.cmd s.block with ⟨e, b, hb, hrej⟩ | ⟨i, hacc⟩
  · exact ⟨e, b, hb, by rw [hrej]; rfl⟩
  · simp [hacc] at hlast

/-- Settles O31: a rejected word leaves LAST_ERR = 1, so a command was accepted, and its operation writes no flag. -/
theorem acceptedCommandKeepsStickyFlags : Obligations.AcceptedCommandKeepsStickyFlags := by
  intro s t h hlast
  obtain rfl := Host.Outcome.next.inj (h.symm.trans (execute_eq s))
  rcases executeBlock_cases s.cmd s.block with ⟨e, b, -, hrej⟩ | ⟨i, hacc⟩
  · simp [hrej] at hlast
  · obtain ⟨-, hpoly, -, -, hcmd, hlen, htbl, hrange, hwarn, -⟩ := performBlock_frame i (afterPoly i s.block)
    simp only [hacc, Block.accept_errCmd, Block.accept_errLen, Block.accept_errTbl, Block.accept_errRange,
      Block.accept_warnPoly, Block.accept_poly, hpoly, hcmd, hlen, htbl, hrange, hwarn]
    rcases afterPoly_cases i s.block with hp | ⟨hlt, hp⟩ <;> rw [hp]
    · exact ⟨rfl, rfl, rfl, rfl, .inl rfl⟩
    · exact ⟨rfl, rfl, rfl, rfl, .inr ⟨rfl, hlt, rfl⟩⟩

/-- Settles O32: a command commutes with any change of the other family's state. -/
theorem familiesAreIndependent : Obligations.FamiliesAreIndependent := by
  refine ⟨fun i s hi w y o d => ?_, fun i s hi p r v m q u => ?_⟩
  · obtain ⟨hword, hsynd, houtc, hdata⟩ := commandBlock_keeps_hamRes hi s.block
    exact ⟨_, exec_eq_next i s, hword, hsynd, houtc, hdata,
      exec_of_block i s (commandBlock_setHamRes w y o d hi s.block).symm⟩
  · obtain ⟨hpoly, hcrc, hvok, htbl, htag, hvalid⟩ := commandBlock_keeps_crcState hi s.block
    exact ⟨_, exec_eq_next i s, hpoly, hcrc, hvok, htbl, htag, hvalid,
      exec_of_block i s (commandBlock_setCrcState hi p r v m q u s.block).symm⟩

/-- Settles O23. -/
theorem stepRunsTheDecodedCommand : Obligations.StepRunsTheDecodedCommand := by
  intro s s' i h hd
  obtain ⟨-, hcmd, -, -⟩ := CompletesNext_frame h
  exact ⟨_, exec_eq_next i s', by rw [step_completes h, executeBlock_of_ok (hcmd ▸ hd)]⟩

/-- Settles O33. -/
theorem nopClearsLastErr : Obligations.NopClearsLastErr := fun n s => exec_eq_next (.nop n) s

end Sys2Proof.Proofs
end


section
/-! PROOF. The laws of the CRC over GF(2) (41_crc.md R128 to R130, R135): the remainder is the only one (`crcDiv_unique`), a
packet is a multiple of the polynomial (`GfMultiple_packet`), so that an error on it shows just when it is no multiple
(`crcVerify_packet_xor_iff`); and which single bits and bursts are multiples. -/

namespace Sys2Proof.Machine

open Sys2Proof.Safety

/-! ### The remainder (R128) -/

/-- Two values of degree below that of the polynomial that differ by a multiple are equal. -/
theorem crcDiv_unique {p : Nat} (hp : p ≠ 0) {v n r : Nat} (hv : v < 2 ^ (n + degree p)) (hr : r < 2 ^ degree p)
    (hm : GfMultiple p (v ^^^ r)) : r = crcDiv v p n := by
  have hdiff : GfMultiple p (r ^^^ crcDiv v p n) := by
    have h := GfMultiple_xor hm (crcDiv_multiple hp hv)
    rwa [Nat.xor_comm v r, Nat.xor_assoc, Nat.xor_xor_cancel_left] at h
  exact Nat.xor_eq_zero_iff.1 (GfMultiple_small hp hdiff (Nat.xor_lt_two_pow hr (crcDiv_lt v p n)))

/-- The CRC of w is the remainder of w(x) x^d. -/
theorem GfMultiple_shift_xor_crcCompute {p : Nat} (hp : p ≠ 0) {w n : Nat} (hw : w < 2 ^ n) :
    GfMultiple p (w <<< degree p ^^^ crcCompute w p n) :=
  crcDiv_multiple hp (shiftLeft_lt hw)

/-! ### Packets and errors on them (R129, R130) -/

/-- The CRC stands below the shifted word, so that joining them is adding them. -/
theorem packet_eq_xor (w p n : Nat) : packet w p n = w <<< degree p ^^^ crcCompute w p n := by
  apply Nat.eq_of_testBit_eq
  intro j
  rw [packet, Nat.testBit_or, Nat.testBit_xor, Nat.testBit_shiftLeft]
  by_cases hj : degree p ≤ j
  · have hc : (crcCompute w p n).testBit j = false :=
      Nat.testBit_lt_two_pow ((crcCompute_lt w p n).trans_le (Nat.pow_le_pow_right (by norm_num) hj))
    simp [hc]
  · simp [hj]

theorem packet_lt {w p n : Nat} (hw : w < 2 ^ n) : packet w p n < 2 ^ (n + degree p) :=
  Nat.or_lt_two_pow (shiftLeft_lt hw)
    ((crcCompute_lt w p n).trans_le (Nat.pow_le_pow_right (by norm_num) (Nat.le_add_left _ _)))

theorem GfMultiple_packet {p : Nat} (hp : p ≠ 0) {w n : Nat} (hw : w < 2 ^ n) : GfMultiple p (packet w p n) :=
  packet_eq_xor w p n ▸ GfMultiple_shift_xor_crcCompute hp hw

theorem GfMultiple_xor_iff {p a : Nat} (ha : GfMultiple p a) (b : Nat) : GfMultiple p (a ^^^ b) ↔ GfMultiple p b := by
  refine ⟨fun h => ?_, GfMultiple_xor ha⟩
  have hb := GfMultiple_xor ha h
  rwa [Nat.xor_xor_cancel_left] at hb

/-- A word verifies just when it is a multiple of the polynomial. -/
theorem crcVerify_iff {p : Nat} (hp : p ≠ 0) {f n : Nat} (hf : f < 2 ^ (n + degree p)) :
    crcVerify f p n = true ↔ GfMultiple p f := by
  rw [crcVerify, decide_eq_true_eq, crcResidue, crcDiv_eq_zero_iff hp hf]

/-- A packet with an error on it verifies just when the error is a multiple of the polynomial. -/
theorem crcVerify_packet_xor_iff {p : Nat} (hp : p ≠ 0) {w n e : Nat} (hw : w < 2 ^ n) (he : e < 2 ^ (n + degree p)) :
    crcVerify (packet w p n ^^^ e) p n = true ↔ GfMultiple p e := by
  rw [crcVerify_iff hp (Nat.xor_lt_two_pow (packet_lt hw) he), GfMultiple_xor_iff (GfMultiple_packet hp hw)]

/-- An error is detected just when it is no multiple of the polynomial. -/
theorem crcVerify_packet_xor_eq_false_iff {p : Nat} (hp : p ≠ 0) {w n e : Nat} (hw : w < 2 ^ n)
    (he : e < 2 ^ (n + degree p)) : crcVerify (packet w p n ^^^ e) p n = false ↔ ¬GfMultiple p e := by
  rw [← Bool.not_eq_true, crcVerify_packet_xor_iff hp hw he]

/-! ### Single bits and bursts (R130) -/

theorem exists_lowest_bit {v : Nat} (hv : v ≠ 0) : ∃ a, v.testBit a = true ∧ ∀ j, j < a → v.testBit j = false := by
  have hex := Nat.exists_testBit_of_ne_zero hv
  exact ⟨Nat.find hex, Nat.find_spec hex, fun j hj => by simpa using Nat.find_min hex hj⟩

/-- A polynomial of two set bits or more has one below its leading bit. -/
theorem exists_lowest_bit_below_degree {p : Nat} (hp : p ≠ 0) (hmono : p ≠ 2 ^ degree p) :
    ∃ a < degree p, p.testBit a = true ∧ ∀ j, j < a → p.testBit j = false := by
  obtain ⟨a, ha, hlow⟩ := exists_lowest_bit hp
  rcases Nat.lt_trichotomy a (degree p) with hlt | heq | hgt
  · exact ⟨a, hlt, ha, hlow⟩
  · refine absurd (Nat.eq_of_testBit_eq fun j => ?_) hmono
    rw [Nat.testBit_two_pow]
    rcases Nat.lt_trichotomy j (degree p) with hj | rfl | hj
    · rw [hlow j (heq ▸ hj)]; simp [hj.ne']
    · simpa using testBit_degree hp
    · rw [testBit_above_degree hj]; simp [hj.ne]
  · simp [testBit_above_degree hgt] at ha

/-- The lowest bit of a product is the sum of the lowest bits. -/
theorem testBit_gfMul_low {q p l a : Nat} (hq : q.testBit l = true) (hql : ∀ i, i < l → q.testBit i = false)
    (hp : p.testBit a = true) (hpl : ∀ j, j < a → p.testBit j = false) : (gfMul q p).testBit (l + a) = true := by
  have hl : l < bitlen q :=
    (Nat.pow_lt_pow_iff_right (by norm_num)).1 ((Nat.ge_two_pow_of_testBit hq).trans_lt (lt_two_pow_bitlen q))
  rw [gfMul, testBit_gfMulBits_low hql hpl, hq, hp]
  simpa using hl

/-- Of a polynomial of two set bits or more no single bit is a multiple: every multiple has the product of the lowest bits
and the product of the leading ones, at different places. -/
theorem not_GfMultiple_two_pow {p : Nat} (hp : p ≠ 0) (hmono : p ≠ 2 ^ degree p) (k : Nat) : ¬GfMultiple p (2 ^ k) := by
  rintro ⟨q, hq⟩
  have hq0 : q ≠ 0 := by
    rintro rfl
    exact absurd hq (Nat.two_pow_pos k).ne'
  obtain ⟨a, had, ha, hal⟩ := exists_lowest_bit_below_degree hp hmono
  obtain ⟨l, hl, hll⟩ := exists_lowest_bit hq0
  have hlow := testBit_gfMul_low hl hll ha hal
  have htop := testBit_gfMul_top hq0 hp
  rw [← hq, Nat.testBit_two_pow, decide_eq_true_eq] at hlow htop
  have hld : ¬degree q < l := fun h => by simp [testBit_above_degree h] at hl
  omega

/-- The single bits from x^d up are multiples of x^d. -/
theorem GfMultiple_two_pow {d k : Nat} (h : d ≤ k) : GfMultiple (2 ^ d) (2 ^ k) :=
  ⟨2 ^ (k - d), by rw [gfMul_monomial, Nat.shiftLeft_eq, ← Nat.pow_add, Nat.sub_add_cancel h]⟩

/-- No burst shorter than an odd polynomial is a multiple of it, wherever it stands. -/
theorem not_GfMultiple_burst {p : Nat} (hodd : p % 2 = 1) {b : Nat} (hb0 : 0 < b) (hb : b < 2 ^ degree p) (j : Nat) :
    ¬GfMultiple p (b <<< j) := fun h =>
  hb0.ne' (GfMultiple_small (by omega) (GfMultiple_of_shiftLeft hodd h) hb)

end Sys2Proof.Machine

namespace Sys2Proof.Proofs

open Sys2Proof.Machine Sys2Proof.Safety

/-- Settles O43: the remainder is below 2^d and differs by a multiple, which only one value does. -/
theorem divisionGivesTheRemainder : Obligations.DivisionGivesTheRemainder := by
  intro p n v hp hv
  have hp0 : p ≠ 0 := by omega
  refine ⟨crcDiv_lt v p n, crcDiv_multiple hp0 hv, fun r => crcDiv_unique hp0 hv, fun w _ => crcDiv_xor v w p n,
    fun w hw => ?_⟩
  rw [gfMul_monomial]
  exact GfMultiple_shift_xor_crcCompute hp0 hw

/-- Settles O44: a packet is a multiple of its polynomial. -/
theorem packetsVerify : Obligations.PacketsVerify := by
  intro p n w hp _ _ hw
  have hp0 : p ≠ 0 := by omega
  exact (crcVerify_iff hp0 (packet_lt hw)).2 (GfMultiple_packet hp0 hw)

/-- Settles O45: each kind of error is, or is not, a multiple of the polynomial. -/
theorem errorDetection : Obligations.ErrorDetection := by
  intro p n w hp _ _ hw
  have hp0 : p ≠ 0 := by omega
  have hbit : ∀ {k}, k < n + degree p → 2 ^ k < 2 ^ (n + degree p) := Nat.pow_lt_pow_right (by norm_num)
  refine ⟨fun e _ he => crcVerify_packet_xor_eq_false_iff hp0 hw he, fun hmono k hk => ?_, fun hmono k hdk hk => ?_,
    fun hodd b j hb0 hb hbj => ?_⟩
  · exact (crcVerify_packet_xor_eq_false_iff hp0 hw (hbit hk)).2 (not_GfMultiple_two_pow hp0 hmono k)
  · refine (crcVerify_packet_xor_iff hp0 hw (hbit hk)).2 ?_
    rw [hmono]
    exact GfMultiple_two_pow hdk
  · exact (crcVerify_packet_xor_eq_false_iff hp0 hw hbj).2 (not_GfMultiple_burst hodd hb0 hb j)

/-- Settles O46: an odd polynomial divides x^d f(x) just when it divides f(x); the other polynomial by evaluation. -/
theorem verifyReadingsAgreeForOddPolynomials : Obligations.VerifyReadingsAgreeForOddPolynomials := by
  refine ⟨fun p n f hp hodd hf => ?_, by decide, by decide⟩
  have hp0 : p ≠ 0 := by omega
  rw [crcResidue, crcCompute, crcDiv_eq_zero_iff hp0 hf, crcDiv_eq_zero_iff hp0 (shiftLeft_lt hf)]
  exact ⟨fun h => GfMultiple_shiftLeft h _, GfMultiple_of_shiftLeft hodd⟩

end Sys2Proof.Proofs
end

section
/-! PROOF. The CRC commands (41_crc.md R121, R125 to R127, R131 to R134): the block of a command that is accepted and of one
that is rejected, as equations, and what the table and the rest of the block are then. -/

namespace Sys2Proof.Machine

open Sys2Proof.Safety

/-! ### The table (R125, R127) -/

theorem shiftRegister_succ (p k r : Nat) :
    shiftRegister p (k + 1) r = shiftRegister p k ((if r.testBit 7 then (r <<< 1) ^^^ p else r <<< 1) % 256) := rfl

/-- The division of a byte by a degree-8 polynomial is the shift register: each step works on the byte's leading bit, and
the byte is shifted where the division moves down one position. -/
theorem crcDiv_shiftLeft_eq_shiftRegister {p : Nat} (hd : degree p = 8) (k : Nat) {r : Nat} (hr : r < 256) :
    crcDiv (r <<< k) p k = shiftRegister p k r := by
  have hp : p ≠ 0 := by rintro rfl; exact absurd hd (by decide)
  induction k generalizing r with
  | zero => rw [crcDiv_zero, hd]; exact Nat.mod_eq_of_lt hr
  | succ k ih =>
    have hlt : (if r.testBit 7 then r <<< 1 ^^^ p else r <<< 1) < 256 := by
      have h := crcDiv_step_lt (i := 0) hp (show r <<< 1 < 2 ^ (0 + 1 + degree p) by
        rw [hd]; exact shiftLeft_lt (a := 8) hr)
      simpa [hd, Nat.testBit_shiftLeft] using h
    have hstep : (if (r <<< (k + 1)).testBit (k + 8) then r <<< (k + 1) ^^^ p <<< k else r <<< (k + 1)) =
        (if r.testBit 7 then r <<< 1 ^^^ p else r <<< 1) <<< k := by
      have hbit : (r <<< (k + 1)).testBit (k + 8) = r.testBit 7 := by
        rw [Nat.testBit_shiftLeft, show k + 8 - (k + 1) = 7 by omega]
        simp
      rw [hbit, Nat.add_comm k 1, Nat.shiftLeft_add, apply_ite (· <<< k), Nat.shiftLeft_xor_distrib]
    rw [crcDiv_succ, hd, hstep, ih hlt, shiftRegister_succ, Nat.mod_eq_of_lt hlt]

/-- The CRC of a byte under a degree-8 polynomial, by the shift register. -/
theorem crcCompute_eq_shiftRegister {p : Nat} (hd : degree p = 8) (i : Byte) :
    crcCompute i.toNat p 8 = shiftRegister p 8 i.toNat := by
  rw [crcCompute, hd]
  exact crcDiv_shiftLeft_eq_shiftRegister hd 8 i.isLt

theorem withoutCache_setTable (m : Memory) (q : BitVec 9) (b : Block) : withoutCache (b.setTable m q) = withoutCache b := rfl

theorem withoutCache_buildTable (p : BitVec 33) (b : Block) : withoutCache (buildTable p b) = withoutCache b :=
  withoutCache_setTable _ _ b

theorem ensureTable_poly (p : BitVec 33) (b : Block) : (ensureTable p b).poly = b.poly := by rw [ensureTable_eq]

/-- After `ensure_table` the tag is the polynomial, whatever the table was before. -/
theorem ensureTable_tag {p : BitVec 33} (hd : degree p.toNat = 8) (b : Block) :
    (ensureTable p b).tblPoly.setWidth 33 = p := by
  by_cases h : b.tblValid = true ∧ b.tblPoly.setWidth 33 = p
  · rw [ensureTable_hit h]; exact h.2
  · rw [ensureTable_miss h]; exact setWidth_tag hd

/-! ### The operations -/

theorem withoutCache_effectivePoly (b : Block) :
    withoutCache b.effectivePoly = { withoutCache b with poly := usedPoly b, warnPoly := warnAfter b } := by
  rw [effectivePoly_eq]; rfl

/-- CRC_COMPUTE writes CRC_OUT, and the table at most. -/
theorem withoutCache_performCrcCompute (n : Nat) (b : Block) :
    withoutCache (performCrcCompute n b) = (withoutCache b).setCrcOut (performCrcCompute n b).crcOut := by
  conv_lhs => rw [performCrcCompute_eq]
  rfl

/-- CRC_COMPUTE on the table path leaves the table of its polynomial. -/
theorem performCrcCompute_holds {b : Block} (hw : Memory.wf b.tbl = true) (hs : TableSound b) (he : b.tblEn = true)
    (hd : degree b.poly.toNat = 8) : HoldsTableOf b.poly (performCrcCompute 8 b) := by
  rw [performCrcCompute_table he hd]
  exact ensureTable_holds hd hw hs

/-- CRC_VERIFY writes the residue and whether it is 0. -/
theorem performCrcVerify_eq (n : Nat) (b : Block) :
    performCrcVerify n b =
      let r : Word := BitVec.ofNat 32 (crcDiv b.din.toNat b.poly.toNat n)
      (b.setCrcOut r).setVok (decide (r = 0#32)) := by
  have hzero : (BitVec.ofNat 32 (crcDiv b.din.toNat b.poly.toNat n) = 0#32) ↔ crcDiv b.din.toNat b.poly.toNat n = 0 := by
    rw [← BitVec.toNat_inj, BitVec.toNat_ofNat, Nat.mod_eq_of_lt (crcDiv_lt_word _ _ _)]
    rfl
  rw [performCrcVerify, crcVerify, crcResidue, decide_eq_decide.2 hzero.symm]

/-! ### Accepted and rejected commands -/

theorem raise_tbl_eq (b : Block) : b.raise .tbl = { b with errTbl := true, lastErr := true } := by simp [Block.raise]

theorem crcComputeBlock_bad_length {n : Nat} (hn : ¬(1 ≤ n ∧ n ≤ 32)) (b : Block) :
    crcComputeBlock n b = b.raise .len := checkLen_fail hn _ _

theorem crcComputeBlock_accepted {n : Nat} {b : Block} (hn : 1 ≤ n ∧ n ≤ 32) (hd : b.din.toNat < 2 ^ n) :
    crcComputeBlock n b = (performCrcCompute n b.effectivePoly).accept := by
  have hlim : b.effectivePoly.din.toNat ≤ computeLimit n := Nat.le_sub_one_of_lt hd
  rw [crcComputeBlock, checkLen_pass hn, checkRange_pass hlim]

theorem crcVerifyBlock_accepted {n : Nat} {b : Block} (hn : 1 ≤ n ∧ n ≤ 32)
    (hd : b.din.toNat < 2 ^ (n + degree (usedPoly b).toNat)) :
    crcVerifyBlock n b = (performCrcVerify n b.effectivePoly).accept := by
  have hlim : b.effectivePoly.din.toNat ≤ verifyLimit n b.effectivePoly.deg := by
    rw [effectivePoly_deg_eq]
    exact Nat.le_sub_one_of_lt hd
  rw [crcVerifyBlock, checkLen_pass hn, checkRange_pass hlim]

section TableCommands

variable {b : Block}

theorem crcTblLoadBlock_accepted (hdeg : degree (usedPoly b).toNat = 8) :
    crcTblLoadBlock b = (ensureTable (usedPoly b) b.effectivePoly).accept := by
  rw [crcTblLoadBlock, checkTable_pass (effectivePoly_deg_eq b ▸ hdeg), effectivePoly_poly_eq]

theorem crcTblReadBlock_accepted (hdeg : degree (usedPoly b).toNat = 8) (hd : b.din.toNat < 256) :
    crcTblReadBlock b =
      let c := ensureTable (usedPoly b) b.effectivePoly
      (c.setCrcOut ((Memory.read c.tbl (b.din.setWidth 8)).setWidth 32)).accept := by
  have hlim : b.effectivePoly.din.toNat ≤ byteLimit := Nat.le_sub_one_of_lt hd
  rw [crcTblReadBlock, checkTable_pass (effectivePoly_deg_eq b ▸ hdeg), checkRange_pass hlim, performCrcTblRead,
    effectivePoly_poly_eq, ensureTable_din, Block.effectivePoly_din]

theorem crcTblReadBlock_out_of_range (hdeg : degree (usedPoly b).toNat = 8) (hd : 256 ≤ b.din.toNat) :
    crcTblReadBlock b = b.effectivePoly.raise .range := by
  have hlim : byteLimit < b.effectivePoly.din.toNat := hd
  rw [crcTblReadBlock, checkTable_pass (effectivePoly_deg_eq b ▸ hdeg), checkRange_fail hlim]

/-- A fallback has degree 8, so that a polynomial of another degree is the one of the register. -/
theorem effectivePoly_of_deg_ne (hdeg : degree (usedPoly b).toNat ≠ 8) : b.effectivePoly = b := by
  refine effectivePoly_of_valid (Nat.le_of_not_lt fun hlt => hdeg ?_)
  rw [usedPoly, if_pos ((poly_lt_two_iff b).1 hlt)]
  decide

theorem crcTblLoadBlock_wrong_degree (hdeg : degree (usedPoly b).toNat ≠ 8) : crcTblLoadBlock b = b.raise .tbl := by
  rw [crcTblLoadBlock, checkTable_fail (effectivePoly_deg_eq b ▸ hdeg), effectivePoly_of_deg_ne hdeg]

theorem crcTblReadBlock_wrong_degree (hdeg : degree (usedPoly b).toNat ≠ 8) : crcTblReadBlock b = b.raise .tbl := by
  rw [crcTblReadBlock, checkTable_fail (effectivePoly_deg_eq b ▸ hdeg), effectivePoly_of_deg_ne hdeg]

end TableCommands

/-- A CRC command leaves the polynomial in use and its warning, accepted or rejected after step 3 of R101. -/
theorem commandBlock_poly {i : Instr} (hi : i.op.toNat ∈ [1, 2, 3, 4])
    (hlen : i.op.toNat ∈ [1, 2] → 1 ≤ i.dlen ∧ i.dlen ≤ 32) (b : Block) :
    (commandBlock i b).poly = b.effectivePoly.poly ∧ (commandBlock i b).warnPoly = b.effectivePoly.warnPoly := by
  have hafter : afterPoly i b = b.effectivePoly := if_pos (decide_eq_true hi)
  rcases commandBlock_cases i b with ⟨-, hop, hbad⟩ | ⟨e, -, hrej, -⟩ | ⟨hacc, -⟩
  · exact absurd (hlen hop) hbad
  · rw [hrej, hafter]; exact ⟨rfl, rfl⟩
  · obtain ⟨-, hpoly, -, -, -, -, -, -, hwarn, -⟩ := performBlock_frame i b.effectivePoly
    rw [hacc, hafter]
    exact ⟨hpoly, hwarn⟩

/-- A block that holds the table of its polynomial is left by CRC_TBL_LOAD but for LAST_ERR. -/
theorem crcTblLoadBlock_of_hit {b : Block} (hvalid : 2 ≤ b.poly.toNat) (hdeg : degree b.poly.toNat = 8)
    (hhit : b.tblValid = true ∧ b.tblPoly.setWidth 33 = b.poly) : crcTblLoadBlock b = b.accept := by
  rw [crcTblLoadBlock, effectivePoly_of_valid hvalid, checkTable_pass hdeg, ensureTable_hit hhit]

/-- A second CRC_TBL_LOAD after an accepted one changes nothing: the first leaves the table of the polynomial in use. -/
theorem crcTblLoadBlock_idem {b : Block} (h : (crcTblLoadBlock b).lastErr = false) :
    crcTblLoadBlock (crcTblLoadBlock b) = crcTblLoadBlock b := by
  by_cases hdeg : degree (usedPoly b).toNat = 8
  · have hpoly : (ensureTable (usedPoly b) b.effectivePoly).accept.poly = usedPoly b :=
      (ensureTable_poly _ _).trans (effectivePoly_poly_eq b)
    rw [crcTblLoadBlock_accepted hdeg, crcTblLoadBlock_of_hit]
    · rfl
    · rw [hpoly, ← effectivePoly_poly_eq]; exact two_le_effectivePoly b
    · rwa [hpoly]
    · rw [hpoly]; exact ⟨ensureTable_tblValid _ _, ensureTable_tag hdeg _⟩
  · simp [crcTblLoadBlock_wrong_degree hdeg] at h

/-- CRC_COMPUTE with another value of TBL_EN leaves the same block but for TBL_EN and the table. -/
theorem withoutCache_crcComputeBlock_setTblEn {b : Block} (hw : Memory.wf b.tbl = true) (hs : TableSound b)
    (n : Nat) (e : Bool) :
    withoutCache (crcComputeBlock n (b.setTblEn e)) = (withoutCache (crcComputeBlock n b)).setTblEn e := by
  by_cases hn : 1 ≤ n ∧ n ≤ 32
  · rcases Nat.lt_or_ge b.din.toNat (2 ^ n) with hd | hd
    · rw [crcComputeBlock_accepted hn hd, crcComputeBlock_accepted (b := b.setTblEn e) hn hd]
      have hr : n = 8 → b.din.toNat < 256 := by rintro rfl; exact hd
      have hout : (performCrcCompute n (b.setTblEn e).effectivePoly).crcOut = (performCrcCompute n b.effectivePoly).crcOut :=
        BitVec.eq_of_toNat_eq ((performCrcCompute_crcOut (b := (b.setTblEn e).effectivePoly) hw hs hr).trans
          (performCrcCompute_crcOut (b := b.effectivePoly) hw hs hr).symm)
      calc withoutCache (performCrcCompute n (b.setTblEn e).effectivePoly).accept
          = (withoutCache (performCrcCompute n (b.setTblEn e).effectivePoly)).accept := rfl
        _ = ((withoutCache (performCrcCompute n b.effectivePoly)).setTblEn e).accept := by
            rw [withoutCache_performCrcCompute, withoutCache_performCrcCompute, hout]; rfl
    · rw [crcComputeBlock_out_of_range hn hd, crcComputeBlock_out_of_range (b := b.setTblEn e) hn hd]
      rfl
  · rw [crcComputeBlock_bad_length hn, crcComputeBlock_bad_length hn]
    rfl

/-- With TBL_EN clear CRC_COMPUTE leaves the table, its tag and its validity, accepted or rejected. -/
theorem crcComputeBlock_keeps_table {b : Block} (he : b.tblEn = false) (n : Nat) :
    (crcComputeBlock n b).tbl = b.tbl ∧ (crcComputeBlock n b).tblPoly = b.tblPoly ∧
      (crcComputeBlock n b).tblValid = b.tblValid := by
  have hpath : ¬(b.effectivePoly.tblEn = true ∧ n = 8 ∧ degree b.effectivePoly.poly.toNat = 8) := by simp [he]
  by_cases hn : 1 ≤ n ∧ n ≤ 32
  · rcases Nat.lt_or_ge b.din.toNat (2 ^ n) with hd | hd
    · rw [crcComputeBlock_accepted hn hd, performCrcCompute_bitwise hpath]
      exact ⟨rfl, rfl, rfl⟩
    · rw [crcComputeBlock_out_of_range hn hd]
      exact ⟨rfl, rfl, rfl⟩
  · rw [crcComputeBlock_bad_length hn]
    exact ⟨rfl, rfl, rfl⟩

end Sys2Proof.Machine

namespace Sys2Proof.Proofs

open Sys2Proof.Machine Sys2Proof.Safety

/-- Settles O34: the command is accepted, and either path writes the CRC. -/
theorem crcComputeResult : Obligations.CrcComputeResult := by
  intro n s hw hs h1 h32 hd
  have hr : n = 8 → s.block.din.toNat < 256 := by rintro rfl; exact hd
  have hout := performCrcCompute_crcOut (b := s.block.effectivePoly) hw hs hr
  refine ⟨_, by rw [exec_eq_next, commandBlock, crcComputeBlock_accepted ⟨h1, h32⟩ hd], ?_, ?_, ?_⟩
  · rwa [effectivePoly_poly_eq] at hout
  · rw [← effectivePoly_poly_eq]
    split
    · next ht =>
      obtain ⟨he, rfl, hdeg⟩ := ht
      exact performCrcCompute_holds (b := s.block.effectivePoly) hw hs he hdeg
    · next ht =>
      rw [performCrcCompute_bitwise (b := s.block.effectivePoly) ht]
      exact ⟨rfl, rfl, rfl⟩
  · exact congrArg Block.accept
      ((withoutCache_performCrcCompute n _).trans (congrArg (Block.setCrcOut _) (withoutCache_effectivePoly s.block)))

/-- Settles O35: the residue fits CRC_OUT. -/
theorem crcVerifyResult : Obligations.CrcVerifyResult := by
  intro n s h1 h32 hd
  refine ⟨BitVec.ofNat 32 (crcDiv s.block.din.toNat (usedPoly s.block).toNat n), ?_, ?_⟩
  · rw [BitVec.toNat_ofNat, Nat.mod_eq_of_lt (crcDiv_lt_word _ _ _)]
  · rw [exec_eq_next, commandBlock, crcVerifyBlock_accepted ⟨h1, h32⟩ hd, performCrcVerify_eq, effectivePoly_eq]
    rfl

/-- Settles O37: the command is accepted, and `ensure_table` leaves the table. -/
theorem crcTblLoadResult : Obligations.CrcTblLoadResult := by
  intro n s hw hs hdeg
  refine ⟨_, by rw [exec_eq_next, commandBlock, crcTblLoadBlock_accepted hdeg], ?_, ?_⟩
  · exact ensureTable_holds (b := s.block.effectivePoly) hdeg hw hs
  · exact congrArg Block.accept ((withoutCache_ensureTable _ _).trans (withoutCache_effectivePoly s.block))

/-- Settles O38: the command is accepted, and reads the table that `ensure_table` leaves. -/
theorem crcTblReadResult : Obligations.CrcTblReadResult := by
  intro n s hw hs hdeg hd
  have hholds := ensureTable_holds (b := s.block.effectivePoly) hdeg hw hs
  refine ⟨_, by rw [exec_eq_next, commandBlock, crcTblReadBlock_accepted hdeg hd], ?_, ?_, ?_⟩
  · exact read_of_holds hholds s.block.din hd
  · exact hholds
  · exact congrArg (Block.accept ∘ Block.setCrcOut _)
      ((withoutCache_ensureTable _ _).trans (withoutCache_effectivePoly s.block))

/-- Settles O39: the degree is checked first, and a fallback would have degree 8. -/
theorem tableCommandNeedsDegreeEight : Obligations.TableCommandNeedsDegreeEight := by
  intro n s
  simp only [exec_eq_next, commandBlock]
  refine ⟨fun hdeg => ?_, fun hdeg hd => ?_⟩
  · rw [crcTblLoadBlock_wrong_degree hdeg, crcTblReadBlock_wrong_degree hdeg, raise_tbl_eq]
    exact ⟨rfl, rfl⟩
  · rw [crcTblReadBlock_out_of_range hdeg hd, effectivePoly_raise_range]

/-- Settles O40: the fallback comes before every check but that of the length. -/
theorem polynomialFallback : Obligations.PolynomialFallback := by
  intro i s t hi hlen h
  obtain rfl := Host.Outcome.next.inj (h.symm.trans (exec_eq_next i s))
  obtain ⟨hpoly, hwarn⟩ := commandBlock_poly hi hlen s.block
  refine ⟨fun hlt => ?_, fun hle => ?_⟩
  · simp [hpoly, hwarn, hlt, Config.defaultPoly]
  · rw [effectivePoly_of_valid hle] at hpoly hwarn
    exact ⟨hpoly, hwarn⟩

/-- Settles O41: the checks do not look at TBL_EN, and either path writes the CRC. -/
theorem tablePathEqualsBitwisePath : Obligations.TablePathEqualsBitwisePath := by
  intro n s e hw hs
  refine ⟨_, _, exec_eq_next _ s, exec_eq_next _ _, withoutCache_crcComputeBlock_setTblEn hw hs n e, ?_⟩
  rintro rfl
  exact crcComputeBlock_keeps_table (b := s.block.setTblEn false) rfl n

/-- Settles O42: a hit leaves the block, a miss builds the table, and a second CRC_TBL_LOAD is a hit. -/
theorem tableIsBuiltOncePerPolynomial : Obligations.TableIsBuiltOncePerPolynomial := by
  refine ⟨fun p b hv ht => ensureTable_hit ⟨hv, ht⟩, fun p b hd hmiss hw => ?_, fun n m s t h hlast => ?_⟩
  · rw [ensureTable_miss hmiss]
    exact buildTable_holds hd hw
  · obtain rfl := Host.Outcome.next.inj (h.symm.trans (exec_eq_next _ s))
    exact exec_of_block (.crcTblLoad m) s (crcTblLoadBlock_idem hlast)

/-- Settles O47: the division of a byte is the shift register. -/
theorem tableBuildFillsEveryEntry : Obligations.TableBuildFillsEveryEntry := by
  intro p b hd hw
  obtain ⟨hvalid, -, hentry⟩ := buildTable_holds hd hw
  refine ⟨fun i => ⟨hentry i, ?_⟩, ?_, hvalid, withoutCache_buildTable p b⟩
  · rw [hentry, crcCompute_eq_shiftRegister hd]
  · exact BitVec.setWidth_eq_extractLsb' (x := p) (w := 9) (by norm_num)

end Sys2Proof.Proofs
end

section
/-! PROOF. The Hamming(12,8) codec (42_hamming.md R160 to R172): the order of the data bits, the syndrome as an XOR of
positions, the decoder on a codeword with no, one and two positions flipped, and the two commands. -/

namespace Sys2Proof.Machine

open Sys2Proof.Safety

/-! ### The order of the data bits (R160) -/

theorem rev8_rev8 (b : Byte) : rev8 (rev8 b) = b := by
  apply BitVec.eq_of_getLsbD_eq
  intro i hi
  rw [rev8, rev8, BitVec.getLsbD_reverse, BitVec.getMsbD_reverse]

/-- Each data bit of a byte in one order is that of the reversed byte in the other. -/
theorem dataBit_rev8 (b : Byte) {i : Nat} (hi : i < 8) : dataBit true (rev8 b) i = dataBit false b i := by
  have hmsb : (rev8 b).getMsbD i = (rev8 b).getLsbD (7 - i) := by
    simp only [BitVec.getMsbD, hi, decide_true, Bool.true_and]
  exact hmsb.symm.trans BitVec.getMsbD_reverse

theorem hamEncodeIn_false (b : Byte) : hamEncodeIn false b = hamEncode (rev8 b) := by
  simp [hamEncode, Config.hamD0IsMsb, hamEncodeIn, dataBit_rev8]

/-- In either order a codeword is a codeword of the order of R6. -/
theorem hamSyndrome_hamEncodeIn (o : Bool) (b : Byte) : hamSyndrome (hamEncodeIn o b) = 0#4 := by
  cases o with
  | false => rw [hamEncodeIn_false, hamSyndrome_hamEncode]
  | true => exact hamSyndrome_hamEncode b

theorem hamExtractIn_hamEncodeIn (o : Bool) (b : Byte) : hamExtractIn o (hamEncodeIn o b) = b := by
  cases o with
  | false =>
    calc hamExtractIn false (hamEncodeIn false b)
      _ = rev8 (hamExtract (hamEncode (rev8 b))) := by rw [hamEncodeIn_false]; rfl
      _ = b := by rw [hamExtract_hamEncode, rev8_rev8]
  | true => exact hamExtract_hamEncode b

/-! ### The bits of a codeword (R161 to R163) -/

theorem getLsbD_append_ofBool_zero {n : Nat} (x : BitVec n) (a : Bool) : (x ++ BitVec.ofBool a).getLsbD 0 = a :=
  BitVec.getLsbD_concat_zero

theorem getLsbD_append_ofBool_succ {n : Nat} (x : BitVec n) (a : Bool) (i : Nat) :
    (x ++ BitVec.ofBool a).getLsbD (i + 1) = x.getLsbD i := BitVec.getLsbD_concat_succ

/-! ### Positions (R161, R165) -/

/-- A nibble is its four bits. -/
theorem nibble_getLsbD (x : BitVec 4) : nibble (x.getLsbD 3) (x.getLsbD 2) (x.getLsbD 1) (x.getLsbD 0) = x := by
  revert x; decide

/-- Adding a position where the word holds a 1 adds that 1 to the parities of the position's own set bits. -/
theorem ite_xor_eq_xor_nibble (v : Bool) (acc x : BitVec 4) :
    (if v then acc ^^^ x else acc) =
      acc ^^^ nibble (v && x.getLsbD 3) (v && x.getLsbD 2) (v && x.getLsbD 1) (v && x.getLsbD 0) := by
  cases v with
  | false => simp [nibble]
  | true => simp only [if_true, Bool.true_and, nibble_getLsbD]

/-- Each syndrome bit collects the positions that have that bit set. -/
theorem hamSyndrome_eq_positionsXor (r : BitVec 12) : hamSyndrome r = positionsXor r := by
  -- The fold becomes one nibble, whose four parities are those of the syndrome.
  have hzero : 0#4 = nibble false false false false := rfl
  simp [positionsXor, List.range, List.range.loop, ite_xor_eq_xor_nibble, hzero, nibble_xor, hamSyndrome_eq_nibble]

/-- Flipping a position changes the bit there and no other. -/
theorem atPos_flipPos (r : BitVec 12) {k j : Nat} (hk : 1 ≤ k ∧ k ≤ 12) (hj : 1 ≤ j ∧ j ≤ 12) :
    atPos (flipPos r k) j = (atPos r j ^^ decide (j = k)) := by
  have hsingle : atPos (BitVec.twoPow 12 (12 - k)) j = decide (j = k) := by
    rw [atPos, BitVec.getLsbD_twoPow]
    simp only [Bool.and_eq_decide, decide_eq_true_eq, decide_eq_decide]
    omega
  exact (atPos_xor _ _ _).trans (congrArg _ hsingle)

theorem flipPos_flipPos_self (r : BitVec 12) (k : Nat) : flipPos (flipPos r k) k = r := by
  rw [flipPos, flipPos, BitVec.xor_assoc, BitVec.xor_self, BitVec.xor_zero]

/-- The bit index p of R172 is position 12 - p. -/
theorem xor_single_eq_flipPos (r : BitVec 12) (p : Fin 12) : r ^^^ (1#12 <<< p.val) = flipPos r (12 - p.val) := by
  rw [flipPos, Nat.sub_sub_self p.isLt.le]

/-! ### The decoder by the syndrome (R166, R167) -/

theorem hamDecode_codeword {r : BitVec 12} (h : hamSyndrome r = 0#4) : hamDecode r = (r, .ok, 0#4) := by
  rcases hamDecode_cases r with ⟨-, hr⟩ | ⟨h12, -⟩ | ⟨h0, -, -⟩
  · exact hr
  · simp [h] at h12
  · exact absurd h h0

theorem hamDecode_uncorrectable {r : BitVec 12} (h : 12 < (hamSyndrome r).toNat) :
    hamDecode r = (r, .uncorrectable, hamSyndrome r) := by
  rcases hamDecode_cases r with ⟨h0, -⟩ | ⟨-, hr⟩ | ⟨-, h12, -⟩
  · simp [h0] at h
  · exact hr
  · omega

theorem hamDecode_position {r : BitVec 12} {k : Nat} (hk : 1 ≤ k ∧ k ≤ 12) (h : (hamSyndrome r).toNat = k) :
    hamDecode r = (flipPos r k, .corrected, hamSyndrome r) := by
  rcases hamDecode_cases r with ⟨h0, -⟩ | ⟨h12, -⟩ | ⟨-, -, hr⟩
  · rw [h0, BitVec.toNat_ofNat] at h
    omega
  · omega
  · rw [hr, h]

/-- The decoder reports the syndrome of the word it was given. -/
theorem hamDecode_synd (r : BitVec 12) : (hamDecode r).2.2 = hamSyndrome r := by
  rcases hamDecode_cases r with ⟨h0, hr⟩ | ⟨-, hr⟩ | ⟨-, -, hr⟩
  · rw [hr, h0]
  · rw [hr]
  · rw [hr]

/-! ### Flipped positions of a codeword (R168, R172) -/

/-- A single error is corrected. -/
theorem hamDecode_flipPos {c : BitVec 12} (hc : hamSyndrome c = 0#4) {k : Nat} (hk : 1 ≤ k ∧ k ≤ 12) :
    hamDecode (flipPos c k) = (c, .corrected, BitVec.ofNat 4 k) := by
  have hs : hamSyndrome (flipPos c k) = BitVec.ofNat 4 k := by
    rw [hamSyndrome_flipPos c hk.1 hk.2, hc, BitVec.zero_xor]
  have hnat : (hamSyndrome (flipPos c k)).toNat = k := by
    rw [hs, BitVec.toNat_ofNat]; omega
  rw [hamDecode_position hk hnat, flipPos_flipPos_self, hs]

section DoubleErrors
variable {c : BitVec 12} (hc : hamSyndrome c = 0#4) {k1 k2 : Nat} (h1 : 1 ≤ k1) (hlt : k1 < k2) (h2 : k2 ≤ 12)
include hc h1 hlt h2

theorem hamSyndrome_flip_two :
    hamSyndrome (flipPos (flipPos c k1) k2) = BitVec.ofNat 4 k1 ^^^ BitVec.ofNat 4 k2 := by
  rw [hamSyndrome_flipPos _ (by omega) h2, hamSyndrome_flipPos _ h1 (by omega), hc, BitVec.zero_xor]

theorem hamSyndrome_flip_two_toNat : (hamSyndrome (flipPos (flipPos c k1) k2)).toNat = k1 ^^^ k2 := by
  have hk1 : k1 % 2 ^ 4 = k1 := by omega
  have hk2 : k2 % 2 ^ 4 = k2 := by omega
  rw [hamSyndrome_flip_two hc h1 hlt h2, BitVec.toNat_xor, BitVec.toNat_ofNat, BitVec.toNat_ofNat, hk1, hk2]

end DoubleErrors

/-- The pairs of positions that R168 lists. -/
def uncorrectablePairs : List (Nat × Nat) :=
  [(1, 12), (2, 12), (3, 12), (4, 9), (4, 10), (4, 11), (5, 8), (5, 10), (5, 11), (6, 8), (6, 9), (6, 11), (7, 8), (7, 9),
    (7, 10)]

/-- They are the pairs whose XOR is no position. -/
theorem mem_uncorrectablePairs_iff {k1 k2 : Nat} (hlt : k1 < k2) (h2 : k2 ≤ 12) :
    (k1, k2) ∈ uncorrectablePairs ↔ 12 < k1 ^^^ k2 := by
  have key : ∀ b < 13, ∀ a < b, ((a, b) ∈ uncorrectablePairs ↔ 12 < a ^^^ b) := by
    unfold uncorrectablePairs; decide
  exact key k2 (by omega) k1 hlt

/-- The XOR of two different positions is not 0 and neither of them. -/
theorem xor_positions_ne {k1 k2 : Nat} (h1 : 1 ≤ k1) (hlt : k1 < k2) :
    k1 ^^^ k2 ≠ 0 ∧ k1 ^^^ k2 ≠ k1 ∧ k1 ^^^ k2 ≠ k2 := by
  refine ⟨fun h => hlt.ne (Nat.xor_eq_zero_iff.1 h), fun h => ?_, fun h => ?_⟩
  · have : k2 = 0 := Nat.xor_right_injective (h.trans (Nat.xor_zero k1).symm)
    omega
  · have : k1 = 0 := Nat.xor_left_injective (h.trans (Nat.zero_xor k2).symm)
    omega

/-- Flipping a third position does not undo the two flips. -/
theorem flip_three_ne (c : BitVec 12) {k1 k2 k3 : Nat} (hk1 : 1 ≤ k1 ∧ k1 ≤ 12) (hk2 : 1 ≤ k2 ∧ k2 ≤ 12)
    (hk3 : 1 ≤ k3 ∧ k3 ≤ 12) (h31 : k3 ≠ k1) (h32 : k3 ≠ k2) : flipPos (flipPos (flipPos c k1) k2) k3 ≠ c := by
  intro h
  have hbit := congrArg (atPos · k3) h
  simp [atPos_flipPos, hk1, hk2, hk3, h31, h32] at hbit

/-! ### The commands (R170, R171) -/

theorem hamEncodeBlock_accepted {b : Block} (h : b.din.toNat < 256) :
    hamEncodeBlock b = { b with
      hamWord := hamEncode (b.din.extractLsb' 0 8), hamSynd := 0#4, hamOutc := .ok, hamData := b.din.extractLsb' 0 8,
      lastErr := false } := by
  have hlim : b.din.toNat ≤ byteLimit := Nat.le_sub_one_of_lt h
  rw [hamEncodeBlock, checkRange_pass hlim, performHamEncode, BitVec.setWidth_eq_extractLsb' (by decide)]
  rfl

theorem hamDecodeBlock_accepted {b : Block} (h : b.din.toNat < 4096) :
    hamDecodeBlock b = { b with
      hamWord := (hamDecode (b.din.extractLsb' 0 12)).1, hamSynd := hamSyndrome (b.din.extractLsb' 0 12),
      hamOutc := (hamDecode (b.din.extractLsb' 0 12)).2.1,
      hamData := hamExtract (hamDecode (b.din.extractLsb' 0 12)).1, lastErr := false } := by
  have hlim : b.din.toNat ≤ codewordLimit := Nat.le_sub_one_of_lt h
  rw [hamDecodeBlock, checkRange_pass hlim, performHamDecode, BitVec.setWidth_eq_extractLsb' (by decide), hamDecode_synd]
  rfl

theorem hamEncodeBlock_out_of_range {b : Block} (h : 256 ≤ b.din.toNat) :
    hamEncodeBlock b = { b with errRange := true, lastErr := true } :=
  (checkRange_fail (limit := byteLimit) h _).trans (raise_range_eq b)

theorem hamDecodeBlock_out_of_range {b : Block} (h : 4096 ≤ b.din.toNat) :
    hamDecodeBlock b = { b with errRange := true, lastErr := true } :=
  (checkRange_fail (limit := codewordLimit) h _).trans (raise_range_eq b)

end Sys2Proof.Machine

namespace Sys2Proof.Proofs

open Sys2Proof.Machine Sys2Proof.Safety

/-- Settles O49: the syndrome the decoder reports is that of the received word. -/
theorem hamDecodeResult : Obligations.HamDecodeResult :=
  fun n s h => exec_of_block (.hamDecode n) s (hamDecodeBlock_accepted h)

/-- Settles O52: each syndrome bit is the parity of the positions that have that bit set. -/
theorem syndromeIsXorOfPositions : Obligations.SyndromeIsXorOfPositions :=
  ⟨hamSyndrome_eq_positionsXor, hamSyndrome_xor, fun r _ => hamSyndrome_flipPos r, hamSyndrome_hamEncode⟩

/-- Settles O53. -/
theorem decodeBySyndrome : Obligations.DecodeBySyndrome :=
  fun _ => ⟨hamDecode_codeword, fun h1 h12 => hamDecode_position ⟨h1, h12⟩ rfl, hamDecode_uncorrectable⟩

/-- Settles O54: the syndrome is k1 XOR k2, which is above 12 just for the listed pairs, and otherwise is a third position;
flipping that one too gives a codeword that differs from the sent one there. -/
theorem doubleErrors : Obligations.DoubleErrors := by
  intro c k1 k2 hc h1 hlt h2 r pairs
  have hnat : (hamSyndrome r).toNat = k1 ^^^ k2 := hamSyndrome_flip_two_toNat hc h1 hlt h2
  have hpairs : (k1, k2) ∈ pairs ↔ 12 < k1 ^^^ k2 := mem_uncorrectablePairs_iff hlt h2
  obtain ⟨hne0, hne1, hne2⟩ := xor_positions_ne h1 hlt
  have hs0 : hamSyndrome r ≠ 0#4 := fun h => hne0 (by rw [← hnat, h]; rfl)
  refine ⟨hamSyndrome_flip_two hc h1 hlt h2, hs0, fun hmem => ?_, fun hmem => ?_⟩
  · exact hamDecode_uncorrectable (hnat ▸ hpairs.1 hmem)
  · have h12 : k1 ^^^ k2 ≤ 12 := not_lt.1 fun h => hmem (hpairs.2 h)
    have hk3 : 1 ≤ k1 ^^^ k2 ∧ k1 ^^^ k2 ≤ 12 := ⟨Nat.one_le_iff_ne_zero.2 hne0, h12⟩
    have hcode : hamSyndrome (flipPos r (k1 ^^^ k2)) = 0#4 := hnat ▸ hamSyndrome_corrected hs0 (hnat ▸ h12)
    exact ⟨k1 ^^^ k2, hk3.1, h12, hne1, hne2, hamDecode_position hk3 hnat, hcode,
      flip_three_ne c (by omega) (by omega) hk3 hne1 hne2⟩

/-- Settles O55: in either order a codeword has syndrome 0, and bit index p is position 12 - p. -/
theorem singleErrorsAreCorrected : Obligations.SingleErrorsAreCorrected := by
  intro o b
  have hc := hamSyndrome_hamEncodeIn o b
  refine ⟨hamDecode_codeword hc, fun p => ?_, hamExtractIn_hamEncodeIn o b⟩
  rw [xor_single_eq_flipPos]
  exact hamDecode_flipPos hc (by omega)

/-- Settles O48. -/
theorem hamEncodeResult : Obligations.HamEncodeResult :=
  fun n s h => exec_of_block (.hamEncode n) s (hamEncodeBlock_accepted h)

/-- Settles O50: the operand is above the command's limit. -/
theorem hamOperandOutOfRange : Obligations.HamOperandOutOfRange := by
  intro n s
  refine ⟨fun h => ?_, fun h => ?_⟩
  · exact exec_of_block (.hamEncode n) s (hamEncodeBlock_out_of_range h)
  · exact exec_of_block (.hamDecode n) s (hamDecodeBlock_out_of_range h)

/-- Settles O51: the codeword is the twelve bits of R161 joined, each a data bit or the parity of R162. -/
theorem codewordBits : Obligations.CodewordBits := by
  intro b d w
  simp only [w, d, hamEncode, Config.hamD0IsMsb, hamEncodeIn, dataBit, if_true, getLsbD_append_ofBool_zero,
    getLsbD_append_ofBool_succ, BitVec.getLsbD_ofBool, Nat.reduceSub, and_self, decide_true, Bool.true_and]

/-- Settles O56. -/
theorem otherDataBitOrder : Obligations.OtherDataBitOrder := ⟨hamEncodeIn_false, fun _ => rfl⟩

end Sys2Proof.Proofs
end

section
/-! PROOF. The exceptions (60_exceptions.md): no step stops the block (R202), and the master of an access reaches nothing
but the record of who was answered (R208, 20_memory.md R69, R72). -/

namespace Sys2Proof.Machine

/-! ### The master of an access -/

theorem target_withMaster (a : Access) (m : Nat) : target { a with master := m } = target a := rfl

theorem isHeld_withMaster (a : Access) (m : Nat) : isHeld { a with master := m } = isHeld a := rfl

/-- A register access from another master gets the same answer, and only the record of who got it differs. -/
theorem performReg_withMaster (a : Access) (m : Nat) (r : Reg) (s : State) :
    ∃ w, (performReg a r s).answers = (a, w) :: s.answers ∧
      performReg { a with master := m } r s =
        { performReg a r s with answers := ({ a with master := m }, w) :: s.answers } := by
  obtain ⟨master, addr, bytes, op⟩ := a
  cases op with
  | read => exact ⟨.data (readReg r s.block), rfl, rfl⟩
  | write v => exact ⟨.done, rfl, rfl⟩

/-- An access from another master gets the same answer, and only the record of who got it differs. -/
theorem performAccess_withMaster (a : Access) (m : Nat) (s : State) :
    ∃ w, (performAccess a s).answers = (a, w) :: s.answers ∧
      performAccess { a with master := m } s =
        { performAccess a s with answers := ({ a with master := m }, w) :: s.answers } := by
  simp only [performAccess, target_withMaster]
  cases target a with
  | outside => exact ⟨.fault .outsideWindow, rfl, rfl⟩
  | bad => exact ⟨.fault .busError, rfl, rfl⟩
  | reg r => exact performReg_withMaster a m r s

end Sys2Proof.Machine

namespace Sys2Proof.Proofs

open Sys2Proof.Machine

/-- Settles O22: where an access goes and what it does there are read from its address, size and operation alone. -/
theorem mastersAreAlike : Obligations.MastersAreAlike := by
  intro a m s
  obtain ⟨w, hans, hm⟩ := performAccess_withMaster a m s
  rw [hm]
  exact ⟨rfl, rfl, ⟨w, hans, rfl⟩, isHeld_withMaster a m⟩

/-- Settles O27: each of the six things a step can do answers a next state. -/
theorem noStepStops : Obligations.NoStepStops := step_eq_next

end Sys2Proof.Proofs
end

section
/-! PROOF. Resets and the end of a command (70_reset_and_hazards.md): what either reset leaves (R231 to R233), and that
every command ends (R241, log 13). -/

namespace Sys2Proof.Machine

open Sys2Proof.Safety

/-! ### The soft reset (R232) -/

/-- A write of CTRL with SRST = 1 takes the block to its reset values, whatever the other bits. -/
theorem writeReg_softReset {v : Word} (h : v.getLsbD 1 = true) (b : Block) : writeReg (regAt 0x04) v b = Block.reset :=
  if_pos h

/-- A busy block holds a write, whatever register it is for. -/
theorem arriveBusy_write {off : Nat} {a : Access} {v : Word} (ha : acceptedAt off a) (ho : a.op = .write v) (s : State) :
    arriveBusy a s = s.setHeld (s.held ++ [a]) := by
  refine arriveBusy_holds (acceptedAt_inWindow ha) (fun hs => ?_) s
  have hread : a.op = .read := hs.2
  exact AccessOp.noConfusion (ho.symm.trans hread)

/-! ### What a step of the busy block leaves -/

theorem arriveBusy_events (a : Access) (s : State) : (arriveBusy a s).events = s.events := by
  rw [arriveBusy]
  split
  · rfl
  · obtain ⟨-, -, -, hevents⟩ := performAccess_frame a s
    exact hevents

/-- With no event left the command in progress completes (log 13). -/
theorem step_ends_of_no_event {s : State} (hb : s.block.busy = true) (he : s.events = []) :
    ∃ t, step s = .next t ∧ t.block.busy = false ∧ t.cmd = 0#32 :=
  ⟨_, step_completes ⟨hb, .inl ⟨he, rfl⟩⟩, rfl, rfl⟩

/-- An event ends the command in progress, or it is an access and the block stays busy with one event less. -/
theorem step_ends_or_takes_event {s : State} {e : Event} {es : List Event} (hb : s.block.busy = true)
    (he : s.events = e :: es) :
    ∃ t, step s = .next t ∧ ((t.block.busy = false ∧ t.cmd = 0#32) ∨ (t.block.busy = true ∧ t.events = es)) := by
  cases e with
  | complete => exact ⟨_, step_completes ⟨hb, .inr ⟨es, he, rfl⟩⟩, .inl ⟨rfl, rfl⟩⟩
  | hwReset keep => exact ⟨_, step_resets ⟨.inl hb, es, he, rfl⟩, .inl ⟨rfl, rfl⟩⟩
  | access a =>
    have hbusy : (arriveBusy a { s with events := es }).block.busy = true := by rw [arriveBusy_block]; exact hb
    exact ⟨_, step_arrives hb he, .inr ⟨hbusy, arriveBusy_events a _⟩⟩

end Sys2Proof.Machine

namespace Sys2Proof.Proofs

open Sys2Proof.Machine Sys2Proof.Safety

/-- Settles O18. -/
theorem softResetIsAnAccess : Obligations.SoftResetIsAnAccess := by
  intro a s v ha ho hsrst
  refine ⟨fun es hb he => ?_, fun s' h => ⟨Block.reset, ?_, rfl, rfl⟩⟩
  · rw [step_arrives hb he, arriveBusy_write ha ho]; rfl
  · rw [step_write h ha ho (by decide), writeReg_softReset hsrst]

/-- Settles O28, by induction on the events left. -/
theorem everyCommandEnds : Obligations.EveryCommandEnds := by
  intro s hb
  induction he : s.events generalizing s with
  | nil =>
    obtain ⟨t, hst, hidle, hcmd⟩ := step_ends_of_no_event hb he
    exact ⟨1, t, le_rfl, run_of_step hst 0, hidle, hcmd⟩
  | cons e es ih =>
    obtain ⟨t, hst, ⟨hidle, hcmd⟩ | ⟨hbusy, hevents⟩⟩ := step_ends_or_takes_event hb he
    · exact ⟨1, t, Nat.le_add_left 1 _, run_of_step hst 0, hidle, hcmd⟩
    · obtain ⟨k, t', hk, hrun, hidle, hcmd⟩ := ih t hbusy hevents
      exact ⟨k + 1, t', Nat.succ_le_succ hk, (run_of_step hst k).trans hrun, hidle, hcmd⟩

/-- Settles O29: the reset is the next step of a busy block, and of an idle one that holds no access. -/
theorem hardwareResetAbandonsTheCommand : Obligations.HardwareResetAbandonsTheCommand := by
  intro s es
  have hreset (keep : List Bool) (h : s.block.busy = true ∨ s.held = []) :
      step { s with events := .hwReset keep :: es } = .next (hardwareReset keep { s with events := es }) :=
    step_resets ⟨h, es, rfl, rfl⟩
  refine ⟨fun hb => ⟨fun keep => ⟨_, hreset keep (.inl hb), rfl, rfl, rfl, rfl, keptHeld_sublist keep s.held⟩,
    fun kept hk => ?_⟩, fun _ hh keep => ⟨_, hreset keep (.inr hh), rfl, rfl, ?_, rfl, rfl⟩⟩
  · obtain ⟨keep, hkeep⟩ := keptHeld_all hk
    exact ⟨keep, _, hreset keep (.inl hb), hkeep⟩
  · exact List.sublist_nil.1 (hh ▸ keptHeld_sublist keep s.held)

end Sys2Proof.Proofs
end
